-- ==== Sys2Proof/Word.lean ====
section
/-! DEFINITION. The words of the block and their names: 32-bit words, binary32 patterns, 12-bit
offsets, the 5-bit slot field (00_scope.md R16 to R18, 30_encoding.md R103). -/

namespace Sys2Proof

/-- The one data width of the block (R16): every register and every bus access is 32 bits. -/
abbrev Word := BitVec 32

/-- A binary32 value IS its 32-bit pattern (R18): sign bit 31, exponent 30:23, fraction 22:0. -/
abbrev F32 := Word

/-- A byte offset in the 12-bit register space (20_memory.md R70). -/
abbrev Addr := BitVec 12

/-- The SLOT field of a command word, bits [12:8] (30_encoding.md R102). -/
abbrev SlotField := BitVec 5

/-- `+0.0` (R18). -/
def posZero : F32 := 0x00000000#32

/-- `-0.0` (R18). -/
def negZero : F32 := 0x80000000#32

/-- `127.0`, the full-scale velocity (R18, 40_voice.md R140). -/
def velocityScale : F32 := 0x42FE0000#32

end Sys2Proof
end

