-- ==== Sys2Proof/Syntax.lean ====
section
/-! DEFINITION. The transactions of the block: `Instr`, one constructor per row of
spec/opcode_table.json, the command words among them (`Command`), and the requests that arrive at
the two ports (30_encoding.md R101, R109, R110). -/

namespace Sys2Proof

/-- One row of the opcode table each. -/
inductive Instr where
  /-- NOP (41_pool.md R185). -/
  | nop
  /-- INIT (41_pool.md R170). -/
  | init
  /-- NOTE_ON (41_pool.md R172). -/
  | noteOn
  /-- NOTE_OFF (41_pool.md R175). -/
  | noteOff
  /-- ALL_OFF (41_pool.md R178). -/
  | allOff
  /-- EVENT with KIND 0 (42_dispatch.md R200). -/
  | eventNoteOn
  /-- EVENT with KIND 1 (42_dispatch.md R200). -/
  | eventNoteOff
  /-- EVENT with KIND 2 (42_dispatch.md R202). -/
  | eventOther
  /-- VSTART (40_voice.md R160). -/
  | vstart (slot : SlotField)
  /-- VSTOP (40_voice.md R162). -/
  | vstop (slot : SlotField)
  /-- TICK (41_pool.md R180). -/
  | tick
  /-- RD: a control-port read of `n` bytes at `addr` (20_memory.md R80, 30_encoding.md R110). -/
  | rd (addr : Addr) (n : Nat)
  /-- WR: a control-port write of `n` bytes at `addr` (20_memory.md R80, 30_encoding.md R110). -/
  | wr (addr : Addr) (n : Nat) (data : Word)
  deriving DecidableEq, Repr

/-- The rows of format C: what a legal word written to CMD commands (30_encoding.md R104). -/
inductive Command where
  | nop
  | init
  | noteOn
  | noteOff
  | allOff
  | eventNoteOn
  | eventNoteOff
  | eventOther
  | vstart (slot : SlotField)
  | vstop (slot : SlotField)
  deriving DecidableEq, Repr

/-- A command as a row of the table. -/
def Command.toInstr : Command → Instr
  | .nop => .nop
  | .init => .init
  | .noteOn => .noteOn
  | .noteOff => .noteOff
  | .allOff => .allOff
  | .eventNoteOn => .eventNoteOn
  | .eventNoteOff => .eventNoteOff
  | .eventOther => .eventOther
  | .vstart slot => .vstart slot
  | .vstop slot => .vstop slot

/-- Why a word written to CMD is illegal: the causes CE1 to CE5 of 60_exceptions.md R213. The block
does not report which one applied. -/
inductive CmdErr where
  /-- CE1: RSV0, RSV1 or RSV2 nonzero. -/
  | reservedBits
  /-- CE2: OP 0x8 to 0xF. -/
  | reservedOpcode
  /-- CE3: SLOT nonzero outside VSTART and VSTOP, or KIND nonzero outside EVENT. -/
  | strayField
  /-- CE4: VSTART or VSTOP with SLOT >= N_VOICES. -/
  | slotRange
  /-- CE5: EVENT with KIND = 3. -/
  | reservedKind
  deriving DecidableEq, Repr

/-- Why a control-port access is refused: the causes DE1 to DE5 of 60_exceptions.md R213. The block
does not report which one applied. -/
inductive DecErr where
  /-- DE1: the size is not 4 bytes. -/
  | size
  /-- DE2: not 4-byte aligned. -/
  | misaligned
  /-- DE3: an unmapped or reserved word. -/
  | unmapped
  /-- DE4: the window of a slot >= N_VOICES. -/
  | slotRange
  /-- DE5: a direction the register does not permit. -/
  | direction
  deriving DecidableEq, Repr

/-- Format B, one control-port access: `(dir, addr, n, data)`, data for a write only (R110). -/
inductive Access where
  | read (addr : Addr) (n : Nat)
  | write (addr : Addr) (n : Nat) (data : Word)
  deriving DecidableEq, Repr

/-- One transaction as it stands at a port: an access at the control port, or the presence of a
TICK at the render port (R101, R109). -/
inductive Request where
  | control (a : Access)
  | tick
  deriving DecidableEq, Repr

/-- The six argument registers (10_state.md R46). -/
inductive ArgReg where
  | note
  | vel
  | attack
  | decay
  | sustain
  | release
  deriving DecidableEq, Repr

/-- The global registers (10_state.md R40 to R46). -/
inductive GlobalReg where
  | id
  | cmd
  | status
  | active
  | gate
  | mixOut
  | arg (r : ArgReg)
  deriving DecidableEq, Repr

/-- The eight registers of a voice window (10_state.md R48 to R53). -/
inductive VoiceReg where
  | state
  | note
  | vel
  | attack
  | decay
  | sustain
  | release
  | out
  deriving DecidableEq, Repr

/-- What an offset addresses (20_memory.md R73). -/
inductive Target where
  | global (r : GlobalReg)
  | voice (slot : Nat) (r : VoiceReg)
  deriving DecidableEq, Repr

/-- What may be read (20_memory.md R76). -/
inductive ReadTarget where
  | id
  | status
  | active
  | gate
  | mixOut
  | arg (r : ArgReg)
  | voice (slot : Nat) (r : VoiceReg)
  deriving DecidableEq, Repr

/-- What may be written (20_memory.md R76). -/
inductive WriteTarget where
  | cmd
  | status
  | arg (r : ArgReg)
  deriving DecidableEq, Repr

end Sys2Proof
end

