-- ==== Sys2Proof/WellFormed.lean ====
section
/-! DEFINITION. Which instructions are well formed: one term for one transaction. -/

namespace Sys2Proof

/-- The offset of CMD (10_state.md R41). -/
def cmdOffset : Addr := 0x004#12

/-- The words of format C, by the match and mask of their rows in spec/opcode_table.json
(30_encoding.md R104; the slot range is the command's own check, 40_voice.md R160, R162). -/
def isCommandWord (w : Word) : Bool :=
  w == 0x00000000#32 || w == 0x00000001#32 || w == 0x00000002#32 || w == 0x00000003#32 ||
  w == 0x00000004#32 || w == 0x00000005#32 || w == 0x00010005#32 || w == 0x00020005#32 ||
  w &&& 0xFFFFE0FF#32 == 0x00000006#32 || w &&& 0xFFFFE0FF#32 == 0x00000007#32

/-- A 32-bit write of a command word to CMD is written as that command's own constructor, never as
`wr` (30_encoding.md R100); every other term is well formed: the slot field holds five bits by its
type, and an access of any size or offset is a transaction the block answers (20_memory.md R80). -/
def Instr.wellFormed : Instr → Bool
  | .nop => true
  | .init => true
  | .noteOn => true
  | .noteOff => true
  | .allOff => true
  | .eventNoteOn => true
  | .eventNoteOff => true
  | .eventOther => true
  | .vstart _ => true
  | .vstop _ => true
  | .tick => true
  | .rd _ _ => true
  | .wr addr n data => !(addr == cmdOffset && n == 4 && isCommandWord data)

end Sys2Proof
end

