-- ==== Sys2Proof/Decode.lean ====
section
/-! DEFINITION. The decoders: a word written to CMD to its command or the name of what makes it
illegal (30_encoding.md R100 to R107), a request at a port to its instruction; and the encoders. -/

namespace Sys2Proof

/-- OP, bits [3:0] (R102). -/
def opField (w : Word) : BitVec 4 := w.extractLsb' 0 4

/-- RSV0, bits [7:4] (R102). -/
def rsv0Field (w : Word) : BitVec 4 := w.extractLsb' 4 4

/-- SLOT, bits [12:8] (R102). -/
def slotField (w : Word) : SlotField := w.extractLsb' 8 5

/-- RSV1, bits [15:13] (R102). -/
def rsv1Field (w : Word) : BitVec 3 := w.extractLsb' 13 3

/-- KIND, bits [17:16] (R102). -/
def kindField (w : Word) : BitVec 2 := w.extractLsb' 16 2

/-- RSV2, bits [31:18] (R102). -/
def rsv2Field (w : Word) : BitVec 14 := w.extractLsb' 18 14

/-- EVENT's KIND codes (R106); code 3 is reserved. -/
def decodeKind (kind : BitVec 2) : Except CmdErr Command :=
  match kind.toNat with
  | 0 => .ok .eventNoteOn
  | 1 => .ok .eventNoteOff
  | 2 => .ok .eventOther
  | _ => .error .reservedKind

/-- The opcode map (R104). -/
def decodeOpcode (op : BitVec 4) (slot : SlotField) (kind : BitVec 2) : Except CmdErr Command :=
  match op.toNat with
  | 0 => .ok .nop
  | 1 => .ok .init
  | 2 => .ok .noteOn
  | 3 => .ok .noteOff
  | 4 => .ok .allOff
  | 5 => decodeKind kind
  | 6 => .ok (.vstart slot)
  | 7 => .ok (.vstop slot)
  | _ => .error .reservedOpcode

/-- The decode of `ExecuteCommand(w)` (R100): checks (a) to (d) of R105, then the opcode map. The
slot range, check (e), is VSTART's and VSTOP's own (40_voice.md R160, R162). -/
def decodeCommand (w : Word) : Except CmdErr Command :=
  if rsv0Field w ≠ 0 ∨ rsv1Field w ≠ 0 ∨ rsv2Field w ≠ 0 then .error .reservedBits
  else if 8 ≤ (opField w).toNat then .error .reservedOpcode
  else if opField w ≠ 6 ∧ opField w ≠ 7 ∧ slotField w ≠ 0 then .error .strayField
  else if opField w ≠ 5 ∧ kindField w ≠ 0 then .error .strayField
  else decodeOpcode (opField w) (slotField w) (kindField w)

/-- The instruction a control-port access asks for (R100, R110). A 32-bit write of a legal command
word to CMD is that command; an illegal word stays a `wr`, whose meaning raises CommandError (log 14). -/
def decodeAccess : Access → Instr
  | .read addr n => .rd addr n
  | .write addr n data =>
    if addr = cmdOffset ∧ n = 4 then
      match decodeCommand data with
      | .ok c => c.toInstr
      | .error _ => .wr addr n data
    else .wr addr n data

/-- The decoder of the machine: total on every request either port can present (R101). -/
def decode : Request → Instr
  | .control a => decodeAccess a
  | .tick => .tick

/-- The words of format C (R104). -/
def encodeCommand : Command → Word
  | .nop => 0x00000000#32
  | .init => 0x00000001#32
  | .noteOn => 0x00000002#32
  | .noteOff => 0x00000003#32
  | .allOff => 0x00000004#32
  | .eventNoteOn => 0x00000005#32
  | .eventNoteOff => 0x00010005#32
  | .eventOther => 0x00020005#32
  | .vstart slot => 0x00000006#32 ||| (slot.setWidth 32 <<< 8)
  | .vstop slot => 0x00000007#32 ||| (slot.setWidth 32 <<< 8)

/-- A command as the transaction that carries it: a 32-bit write to CMD (R41, R100). -/
def commandRequest (c : Command) : Request := .control (.write cmdOffset 4 (encodeCommand c))

/-- The transaction of an instruction at its port (R101, R109, R110). -/
def encode : Instr → Request
  | .nop => commandRequest .nop
  | .init => commandRequest .init
  | .noteOn => commandRequest .noteOn
  | .noteOff => commandRequest .noteOff
  | .allOff => commandRequest .allOff
  | .eventNoteOn => commandRequest .eventNoteOn
  | .eventNoteOff => commandRequest .eventNoteOff
  | .eventOther => commandRequest .eventOther
  | .vstart slot => commandRequest (.vstart slot)
  | .vstop slot => commandRequest (.vstop slot)
  | .tick => .tick
  | .rd addr n => .control (.read addr n)
  | .wr addr n data => .control (.write addr n data)

/-- The transaction that a row's bits stand for: a row with bits is a word of format C written to
CMD; a row without bits is the TICK, whose only encoding is its presence (R101, R109, log 13). -/
def tableRequest (nbits w : Nat) : Option Request :=
  if nbits = 0 then some .tick
  else if nbits ≤ 32 then some (.control (.write cmdOffset 4 (BitVec.ofNat 32 w)))
  else none

/-- What the decoder reads from a row's bits; no transaction is longer than 32 bits (R101). -/
def decodeTableWord (nbits w : Nat) : Option Instr := (tableRequest nbits w).map decode

end Sys2Proof
end

