-- ==== Sys2Proof/Config.lean ====
section
/-! DEFINITION. The implementation parameters of 00_scope.md R8 to R14: the record `Params`, an
argument of every operation of the machine, and the OPEN ones as constants without a body. -/

namespace Sys2Proof

/-- The oscillator's hidden state (R11), opaque: as many 32-bit words as the implementation needs
(log 8, DESIGN CHOICE, safe). -/
structure OscState where
  words : List Word
  deriving DecidableEq, Repr, Inhabited

/-- The envelope generator's hidden state (R12), opaque: as many 32-bit words as the implementation
needs (log 9, DESIGN CHOICE, safe). -/
structure EgState where
  words : List Word
  deriving DecidableEq, Repr, Inhabited

/-- `OSC`, the oscillator primitive (R11): three total functions. -/
structure OscPrim where
  /-- `OSC.init(sr)`. -/
  init : F32 → OscState
  /-- `OSC.set_freq(o, hz)`. -/
  setFreq : OscState → F32 → OscState
  /-- `OSC.step(o)`: the next state and the sample. -/
  step : OscState → OscState × F32
  deriving Inhabited

/-- `EG`, the envelope-generator primitive (R12): five total functions. -/
structure EgPrim where
  /-- `EG.init(sr)`. -/
  init : F32 → EgState
  /-- `EG.config(e, sus, atk, dec, rel)`, in this order of arguments. -/
  config : EgState → F32 → F32 → F32 → F32 → EgState
  /-- `EG.restart(e)`: back to the start of the attack phase. -/
  restart : EgState → EgState
  /-- `EG.step(e, gate)`: the next state and the amplitude. -/
  step : EgState → Bool → EgState × F32
  /-- `EG.running(e)`. -/
  running : EgState → Bool
  deriving Inhabited

/-- `F32`, the binary32 arithmetic the block uses (R14, R21). -/
structure Arith where
  add : F32 → F32 → F32
  mul : F32 → F32 → F32
  div : F32 → F32 → F32
  eq : F32 → F32 → Bool

/-- The three operations that may answer a NaN (R14, R21). -/
inductive ArithOp where
  | add
  | mul
  | div
  deriving DecidableEq, Repr

/-- One NaN pattern: either sign, any nonzero fraction (`payload + 1`). -/
structure NanPattern where
  sign : Bool
  payload : Fin 0x7FFFFF
  deriving DecidableEq, Repr, Inhabited

/-- The NaN as a binary32 pattern: exponent all ones, nonzero fraction. -/
def NanPattern.toF32 (p : NanPattern) : F32 :=
  BitVec.ofNat 32 ((if p.sign then 2 ^ 31 else 0) + 0x7F800000 + (p.payload.val + 1))

/-- A positive finite binary32 value, which is what R9 asks of SAMPLE_RATE: a pattern from
0x00000001 to 0x7F7FFFFF, counted from zero. -/
structure PositiveFinite where
  code : Fin 0x7F7FFFFF
  deriving DecidableEq, Repr, Inhabited

/-- Its pattern. -/
def PositiveFinite.toF32 (p : PositiveFinite) : F32 := BitVec.ofNat 32 (p.code.val + 1)

/-- Every parameter but N_VOICES, which is the number of slots the voice list has (log 5). -/
structure Params where
  /-- `F32` (R14). -/
  f32 : Arith
  /-- `SAMPLE_RATE` (R9). -/
  sampleRate : PositiveFinite
  /-- `MTOF` (R10). -/
  mtof : F32 → F32
  /-- `OSC` (R11). -/
  osc : OscPrim
  /-- `EG` (R12). -/
  eg : EgPrim
  /-- `DEFAULT_ATTACK` (R13). -/
  defaultAttack : F32
  /-- `DEFAULT_DECAY` (R13). -/
  defaultDecay : F32
  /-- `DEFAULT_SUSTAIN` (R13). -/
  defaultSustain : F32
  /-- `DEFAULT_RELEASE` (R13). -/
  defaultRelease : F32

namespace Config

/-- The default of N_VOICES (R8); 1 to 32 are legal. -/
def nVoices : Nat := 8

/-- `SAMPLE_RATE`, OPEN (R9, log 6). -/
opaque sampleRate : PositiveFinite

/-- `MTOF`, OPEN (R10, log 7). -/
opaque mtof : F32 → F32

/-- `OSC`, OPEN (R11, log 8). -/
opaque osc : OscPrim

/-- `EG`, OPEN (R12, log 9). -/
opaque eg : EgPrim

/-- `DEFAULT_ATTACK`, OPEN (R13, log 10). -/
opaque defaultAttack : F32

/-- `DEFAULT_DECAY`, OPEN (R13, log 10). -/
opaque defaultDecay : F32

/-- `DEFAULT_SUSTAIN`, OPEN (R13, log 10). -/
opaque defaultSustain : F32

/-- `DEFAULT_RELEASE`, OPEN (R13, log 10). -/
opaque defaultRelease : F32

/-- `NAN_OUT`, OPEN (R14, log 11): the NaN an operation answers depends on the operation and its
operands alone (R21), and is otherwise free. -/
opaque nanOut : ArithOp → F32 → F32 → NanPattern

end Config

end Sys2Proof
end

