-- ==== Sys2Proof/Machine/F32.lean ====
section
/-! DEFINITION. The default of F32: IEEE 754 binary32, roundTiesToEven, subnormals kept, quiet
equality (00_scope.md R14, R18, R21), computed exactly on integers and rounded once at the end.
The layout and the corner cases are general knowledge the spec marks as its own (log 12). -/

namespace Sys2Proof.Machine

/-- Sign, bit 31 (R18). -/
def f32Sign (a : F32) : Bool := a.msb

/-- Exponent field, bits 30:23 (R18). -/
def f32Exponent (a : F32) : Nat := (a.extractLsb' 23 8).toNat

/-- Fraction field, bits 22:0 (R18). -/
def f32Fraction (a : F32) : Nat := (a.extractLsb' 0 23).toNat

def f32IsNaN (a : F32) : Bool := f32Exponent a == 255 && f32Fraction a != 0

def f32IsInf (a : F32) : Bool := f32Exponent a == 255 && f32Fraction a == 0

def f32IsZero (a : F32) : Bool := f32Exponent a == 0 && f32Fraction a == 0

/-- The magnitude of a finite value as a whole number of the smallest subnormals, `2 ^ (-149)`. -/
def f32Magnitude (a : F32) : Nat :=
  if f32Exponent a = 0 then f32Fraction a
  else (2 ^ 23 + f32Fraction a) * 2 ^ (f32Exponent a - 1)

/-- The signed value of a finite value, in the same unit. -/
def f32Value (a : F32) : Int :=
  if f32Sign a then -(f32Magnitude a : Int) else (f32Magnitude a : Int)

/-- A sign and the 31 bits below it. -/
def f32Pack (negative : Bool) (bits : Nat) : F32 :=
  BitVec.ofNat 32 ((if negative then 2 ^ 31 else 0) + bits)

def f32Zero (negative : Bool) : F32 := f32Pack negative 0

def f32Infinity (negative : Bool) : F32 := f32Pack negative 0x7F800000

/-- `num / den` to the nearest natural number, ties to even. -/
def roundTiesToEven (num den : Nat) : Nat :=
  let q := num / den
  let r := num % den
  if 2 * r < den then q
  else if den < 2 * r then q + 1
  else if q % 2 = 0 then q
  else q + 1

/-- The exact value `num / den`, in units of `2 ^ (-149)`, rounded to binary32. The significand has
24 bits above the binade of `shift`; adding it to `shift * 2 ^ 23` writes exponent and fraction in
one sum, a carry out of the rounding included; a result past the largest finite one is an infinity. -/
def f32Round (negative : Bool) (num den : Nat) : F32 :=
  let shift := Nat.log2 (num / den) - 23
  f32Pack negative (min (shift * 2 ^ 23 + roundTiesToEven num (den * 2 ^ shift)) 0x7F800000)

/-- `f32_add` (R21); an exact zero sum is `+0.0` unless both operands are `-0.0` (41_pool.md R181). -/
def f32Add (nan : ArithOp → F32 → F32 → NanPattern) (a b : F32) : F32 :=
  if f32IsNaN a || f32IsNaN b then (nan .add a b).toF32
  else if f32IsInf a then
    if f32IsInf b && f32Sign a != f32Sign b then (nan .add a b).toF32 else a
  else if f32IsInf b then b
  else
    let sum := f32Value a + f32Value b
    if sum = 0 then f32Zero (f32Sign a && f32Sign b)
    else f32Round (decide (sum < 0)) sum.natAbs 1

/-- `f32_mul` (R21). -/
def f32Mul (nan : ArithOp → F32 → F32 → NanPattern) (a b : F32) : F32 :=
  let negative := f32Sign a != f32Sign b
  if f32IsNaN a || f32IsNaN b then (nan .mul a b).toF32
  else if (f32IsInf a && f32IsZero b) || (f32IsZero a && f32IsInf b) then (nan .mul a b).toF32
  else if f32IsInf a || f32IsInf b then f32Infinity negative
  else f32Round negative (f32Magnitude a * f32Magnitude b) (2 ^ 149)

/-- `f32_div` (R21). -/
def f32Div (nan : ArithOp → F32 → F32 → NanPattern) (a b : F32) : F32 :=
  let negative := f32Sign a != f32Sign b
  if f32IsNaN a || f32IsNaN b then (nan .div a b).toF32
  else if (f32IsInf a && f32IsInf b) || (f32IsZero a && f32IsZero b) then (nan .div a b).toF32
  else if f32IsInf a || f32IsZero b then f32Infinity negative
  else if f32IsInf b then f32Zero negative
  else f32Round negative (f32Magnitude a * 2 ^ 149) (f32Magnitude b)

/-- `f32_eq` (R21): quiet equality, `+0.0` equals `-0.0` and a NaN equals nothing. -/
def f32Eq (a b : F32) : Bool :=
  !f32IsNaN a && !f32IsNaN b && (a == b || (f32IsZero a && f32IsZero b))

/-- The order of the real values, used by the named envelope properties only (40_voice.md R156): a
NaN is below nothing and above nothing, and an infinity's magnitude exceeds every finite one. -/
def f32Lt (a b : F32) : Bool :=
  !f32IsNaN a && !f32IsNaN b && decide (f32Value a < f32Value b)

/-- The default of F32 (R14), its NaN results left to `nan`. -/
def f32Ieee (nan : ArithOp → F32 → F32 → NanPattern) : Arith where
  add := f32Add nan
  mul := f32Mul nan
  div := f32Div nan
  eq := f32Eq

/-- The parameters `exec` runs with: F32 at its default (R14), everything OPEN left without a
value (log 6 to log 12). -/
def params : Params where
  f32 := f32Ieee Config.nanOut
  sampleRate := Config.sampleRate
  mtof := Config.mtof
  osc := Config.osc
  eg := Config.eg
  defaultAttack := Config.defaultAttack
  defaultDecay := Config.defaultDecay
  defaultSustain := Config.defaultSustain
  defaultRelease := Config.defaultRelease

end Sys2Proof.Machine
end

