-- ==== Sys2Proof/Machine/Voice.lean ====
section
/-! DEFINITION. One voice slot (10_state.md R33) and its internal operations: Initialize, Start,
Stop, ProcessSample (40_voice.md R130 to R144). -/

namespace Sys2Proof.Machine

/-- The fields of a voice slot `V[i]` (10_state.md R33). -/
structure Voice where
  /-- "is this voice currently producing non-silent or decaying output". -/
  active : Bool
  /-- The key is held. -/
  gate : Bool
  note : F32
  velocity : F32
  /-- The shape frozen at Start (R38): attack, decay, sustain, release. -/
  attack : F32
  decay : F32
  sustain : F32
  release : F32
  /-- Opaque oscillator state (R59). -/
  osc : OscState
  /-- Opaque envelope-generator state (R59). -/
  eg : EgState
  /-- The mixer's capture register V_OUT (R53). -/
  out : F32
  deriving DecidableEq, Repr

/-- The operands of Start: the values of the six argument registers (10_state.md R46). -/
structure Args where
  note : F32
  vel : F32
  attack : F32
  decay : F32
  sustain : F32
  release : F32
  deriving DecidableEq, Repr

/-- `VoiceInit(i)` (40_voice.md R130); the same for every slot, whatever it held. -/
def voiceInit (P : Params) : Voice where
  active := false
  gate := false
  note := posZero
  velocity := posZero
  attack := P.defaultAttack
  decay := P.defaultDecay
  sustain := P.defaultSustain
  release := P.defaultRelease
  osc := P.osc.init P.sampleRate.toF32
  eg := P.eg.config (P.eg.init P.sampleRate.toF32)
    P.defaultSustain P.defaultAttack P.defaultDecay P.defaultRelease
  out := posZero

/-- `VoiceStart(i, n, v, a, d, s, r)` (40_voice.md R131): the envelope is configured, then
restarted; the oscillator only gets its frequency (R135); `out` is not written. -/
def voiceStart (P : Params) (x : Args) (v : Voice) : Voice :=
  { v with
    velocity := x.vel
    note := x.note
    attack := x.attack
    decay := x.decay
    sustain := x.sustain
    release := x.release
    eg := P.eg.restart (P.eg.config v.eg x.sustain x.attack x.decay x.release)
    osc := P.osc.setFreq v.osc (P.mtof x.note)
    active := true
    gate := true }

/-- `VoiceStop(i)` (40_voice.md R132): the gate only. -/
def voiceStop (v : Voice) : Voice := { v with gate := false }

/-- `VoiceProcess(i)` (40_voice.md R140): the voice after one sample, and the sample. The envelope
steps before the oscillator (R141), and `active` is cleared after the sample is produced. -/
def voiceProcess (P : Params) (v : Voice) : Voice × F32 :=
  if v.active then
    let (eg, env) := P.eg.step v.eg v.gate
    let (osc, o) := P.osc.step v.osc
    let gain := P.f32.div v.velocity velocityScale
    ({ v with eg := eg, osc := osc, active := P.eg.running eg },
      P.f32.mul (P.f32.mul o gain) env)
  else (v, posZero)

/-- One slot's part of a TICK (41_pool.md R180): `VoiceProcess`, and its result captured in `out`. -/
def voiceTick (P : Params) (v : Voice) : Voice :=
  { (voiceProcess P v).1 with out := (voiceProcess P v).2 }

end Sys2Proof.Machine
end

