-- ==== Sys2Proof/Machine/Block.lean ====
section
/-! DEFINITION. The architectural state of the block (10_state.md R30) and what reset leaves in it
(70_reset_and_hazards.md R240). -/

namespace Sys2Proof.Machine

/-- Everything the spec calls state (R30). ID, ACTIVE, GATE and V_STATE are views of it (R40, R43,
R44, R48); CMD holds nothing (R41). -/
structure Block where
  /-- STATUS.CMDERR (R42). -/
  cmderr : Bool
  /-- ARG_NOTE to ARG_RELEASE (R46). -/
  args : Args
  /-- MIX_OUT (R45). -/
  mixOut : F32
  /-- `V[0 .. N_VOICES-1]`, one entry a slot (R33, R39). -/
  voices : List Voice
  deriving DecidableEq, Repr

/-- N_VOICES is the number of slots the pool has (00_scope.md R8, 10_state.md R39, log 5). -/
def Block.nVoices (b : Block) : Nat := b.voices.length

/-- The legal capacities (00_scope.md R8). -/
def Block.wf (b : Block) : Bool := decide (1 ≤ b.nVoices) && decide (b.nVoices ≤ 32)

/-- The argument registers after reset (10_state.md R46). -/
def argsReset : Args where
  note := posZero
  vel := posZero
  attack := posZero
  decay := posZero
  sustain := posZero
  release := posZero

/-- The block of `n` slots after reset (70_reset_and_hazards.md R240). -/
def blockReset (P : Params) (n : Nat) : Block where
  cmderr := false
  args := argsReset
  mixOut := posZero
  voices := List.replicate n (voiceInit P)

end Sys2Proof.Machine
end

