-- ==== Sys2Proof/Machine/State.lean ====
section
/-! DEFINITION. The state of the machine: the block's architectural state, the inputs still to
come, the answers given so far; the reasons a step can stop; and the state after reset. -/

namespace Sys2Proof.Machine

/-- What the outside presents next (60_exceptions.md R228, 70_reset_and_hazards.md R240). -/
inductive Input where
  /-- One transaction at one port. -/
  | request (r : Request)
  /-- A control-port access and a TICK presented at the same time (20_memory.md R92). -/
  | together (a : Access)
  /-- The reset input, asserted and released (70_reset_and_hazards.md R240, log 4). -/
  | reset
  deriving DecidableEq, Repr

/-- The response of a control-port transaction (20_memory.md R80). -/
inductive Resp where
  | okay
  | decErr
  deriving DecidableEq, Repr

/-- What a transaction answered: one entry of the event history (60_exceptions.md R229, log 2). -/
inductive Event where
  /-- A read's response and the data with it (20_memory.md R80). -/
  | read (r : Resp) (data : Word)
  /-- A write's response (20_memory.md R80). -/
  | write (r : Resp)
  /-- A write to CMD that answered OKAY and set STATUS.CMDERR (60_exceptions.md R212). -/
  | illegalCommand
  /-- The sample of a TICK, on the render port (41_pool.md R180). -/
  | sample (v : F32)
  deriving DecidableEq, Repr

/-- The state. -/
structure State where
  /-- The architectural state of 10_state.md R30. -/
  block : Block
  /-- The model's own: the inputs still to come, in the one total order in which they take effect
  (20_memory.md R91, log 1). -/
  inbox : List Input
  /-- The model's own: the answers given so far, the newest first (60_exceptions.md R229, log 2). -/
  log : List Event
  deriving DecidableEq, Repr

/-- No transaction faults: "the block never hangs, never refuses further transactions and has no
fault state" (60_exceptions.md R229). Nobody raises one. -/
inductive Fault : Type
  deriving DecidableEq, Repr

/-- The refusals. -/
inductive Refusal where
  /-- Raised by an arm of `exec` whose instruction has no meaning yet; safe. No arm is left so. -/
  | notModelled (mnemonic : String)
  deriving DecidableEq, Repr

/-- The machine right after reset (70_reset_and_hazards.md R240), with the default number of slots
(00_scope.md R8), no input presented and nothing answered (log 1, log 2). -/
def State.reset : State where
  block := blockReset params Config.nVoices
  inbox := []
  log := []

/-- The three outcomes of a step on this machine. -/
abbrev Result := Host.Outcome State Fault Refusal

end Sys2Proof.Machine
end

