-- ==== Sys2Proof/Machine/Operands.lean ====
section
/-! DEFINITION. Where the operands are: the voice pool address decoder (20_memory.md R73), the
directions it permits (R76), the argument registers (10_state.md R46) and the byte lanes (R78). -/

namespace Sys2Proof.Machine

/-- `GLOBAL_MAP`, by word index `addr[10:2]` (20_memory.md R73). -/
def globalMap (index : Nat) : Option GlobalReg :=
  match index with
  | 0 => some .id
  | 1 => some .cmd
  | 2 => some .status
  | 3 => some .active
  | 4 => some .gate
  | 5 => some .mixOut
  | 8 => some (.arg .note)
  | 9 => some (.arg .vel)
  | 10 => some (.arg .attack)
  | 11 => some (.arg .decay)
  | 12 => some (.arg .sustain)
  | 13 => some (.arg .release)
  | _ => none

/-- `VOICE_MAP`, by register number `addr[5:2]`; registers 8 to 15 are reserved (R73, 10_state.md R54). -/
def voiceMap (index : Nat) : Option VoiceReg :=
  match index with
  | 0 => some .state
  | 1 => some .note
  | 2 => some .vel
  | 3 => some .attack
  | 4 => some .decay
  | 5 => some .sustain
  | 6 => some .release
  | 7 => some .out
  | _ => none

/-- `addr[10:6]` (R72). -/
def addrSlot (addr : Addr) : Nat := (addr.extractLsb' 6 5).toNat

/-- `addr[5:2]` (R72). -/
def addrVoiceReg (addr : Addr) : Nat := (addr.extractLsb' 2 4).toNat

/-- `addr[10:2]` (R71). -/
def addrGlobalIndex (addr : Addr) : Nat := (addr.extractLsb' 2 9).toNat

/-- `Decode(dir, addr, n)` up to the check of the direction (R73), in the order written there. -/
def locate (nVoices : Nat) (addr : Addr) (n : Nat) : Except DecErr Target :=
  if n ≠ 4 then .error .size
  else if addr.extractLsb' 0 2 ≠ 0 then .error .misaligned
  else if addr.getLsbD 11 = false then
    match globalMap (addrGlobalIndex addr) with
    | some r => .ok (.global r)
    | none => .error .unmapped
  else if nVoices ≤ addrSlot addr then .error .slotRange
  else
    match voiceMap (addrVoiceReg addr) with
    | some r => .ok (.voice (addrSlot addr) r)
    | none => .error .unmapped

/-- Reads are permitted to everything but CMD (R76). -/
def readable : Target → Except DecErr ReadTarget
  | .global .id => .ok .id
  | .global .cmd => .error .direction
  | .global .status => .ok .status
  | .global .active => .ok .active
  | .global .gate => .ok .gate
  | .global .mixOut => .ok .mixOut
  | .global (.arg r) => .ok (.arg r)
  | .voice slot r => .ok (.voice slot r)

/-- Writes are permitted to CMD, STATUS and the argument registers (R76). -/
def writable : Target → Except DecErr WriteTarget
  | .global .id => .error .direction
  | .global .cmd => .ok .cmd
  | .global .status => .ok .status
  | .global .active => .error .direction
  | .global .gate => .error .direction
  | .global .mixOut => .error .direction
  | .global (.arg r) => .ok (.arg r)
  | .voice _ _ => .error .direction

/-- `Decode(READ, addr, n)` (R73). -/
def decodeRead (nVoices : Nat) (addr : Addr) (n : Nat) : Except DecErr ReadTarget :=
  match locate nVoices addr n with
  | .ok t => readable t
  | .error e => .error e

/-- `Decode(WRITE, addr, n)` (R73). -/
def decodeWrite (nVoices : Nat) (addr : Addr) (n : Nat) : Except DecErr WriteTarget :=
  match locate nVoices addr n with
  | .ok t => writable t
  | .error e => .error e

/-- The value of an argument register (10_state.md R46). -/
def argRead (x : Args) : ArgReg → F32
  | .note => x.note
  | .vel => x.vel
  | .attack => x.attack
  | .decay => x.decay
  | .sustain => x.sustain
  | .release => x.release

/-- A write to an argument register stores the pattern unchanged (10_state.md R46, R47). -/
def argWrite (x : Args) (d : F32) : ArgReg → Args
  | .note => { x with note := d }
  | .vel => { x with vel := d }
  | .attack => { x with attack := d }
  | .decay => { x with decay := d }
  | .sustain => { x with sustain := d }
  | .release => { x with release := d }

/-- Byte lane `k` of a word, for a master that views it as bytes (20_memory.md R78); the block
itself never addresses a byte. -/
def byteLane (w : Word) (k : Fin 4) : BitVec 8 := w.extractLsb' (8 * k.val) 8

end Sys2Proof.Machine
end

