-- ==== Sys2Proof/Machine/Flags.lean ====
section
/-! DEFINITION. The status bits and the registers that are views of them: STATUS, ACTIVE, GATE,
V_STATE (10_state.md R42 to R44, R48, R49, R57), ID (R40), and the value of every readable register. -/

namespace Sys2Proof.Machine

/-- ID: N_VOICES in bits [5:0], the others read 0 (R40). -/
def idWord (n : Nat) : Word := (BitVec.ofNat 6 n).setWidth 32

/-- STATUS: CMDERR in bit 0, the others read 0 (R42). -/
def statusWord (cmderr : Bool) : Word := (BitVec.ofBool cmderr).setWidth 32

/-- One bit a slot, slot i in bit i; bits of absent slots read 0 (R43, R44). -/
def slotBits (f : Voice → Bool) : List Voice → Word
  | [] => 0
  | v :: vs => (slotBits f vs <<< 1) ||| (BitVec.ofBool (f v)).setWidth 32

/-- The STATE field (R49): 0 Idle (either gate), 1 Sounding, 2 Releasing. -/
def stateField (active gate : Bool) : BitVec 2 :=
  match active, gate with
  | false, _ => 0b00#2
  | true, true => 0b01#2
  | true, false => 0b10#2

/-- V_STATE: ACTIVE in bit 0, GATE in bit 1, STATE in bits [3:2], the others read 0 (R48). -/
def voiceStateWord (active gate : Bool) : Word :=
  (stateField active gate ++ BitVec.ofBool gate ++ BitVec.ofBool active).setWidth 32

/-- A register of a voice window (R48 to R53). -/
def voiceRegRead (v : Voice) : VoiceReg → Word
  | .state => voiceStateWord v.active v.gate
  | .note => v.note
  | .vel => v.velocity
  | .attack => v.attack
  | .decay => v.decay
  | .sustain => v.sustain
  | .release => v.release
  | .out => v.out

/-- The current value of a readable register (20_memory.md R80). The decoder gives no slot past the
pool's end, so the last arm's zero answers no read. -/
def readValue (b : Block) : ReadTarget → Word
  | .id => idWord b.nVoices
  | .status => statusWord b.cmderr
  | .active => slotBits Voice.active b.voices
  | .gate => slotBits Voice.gate b.voices
  | .mixOut => b.mixOut
  | .arg r => argRead b.args r
  | .voice slot r =>
    match b.voices[slot]? with
    | some v => voiceRegRead v r
    | none => 0

end Sys2Proof.Machine
end

