-- ==== Sys2Proof/Machine/Ops.lean ====
section
/-! DEFINITION. The operations the meanings share: the pool's NoteOn, NoteOff, FreeAllVoices,
Initialize and ProcessSample (41_pool.md), the two error reports (60_exceptions.md), reset, and
what the next input asks for. -/

namespace Sys2Proof.Machine

/-- A transaction's end: the block it leaves and the answer it gives, both at once (20_memory.md R93). -/
def answer (s : State) (b : Block) (e : Event) : State :=
  { s with block := b, log := e :: s.log }

/-- A command's end: the CMD write answers OKAY (20_memory.md R80). -/
def commandDone (s : State) (b : Block) : State := answer s b (.write .okay)

/-- `raise CommandError(w)` (60_exceptions.md R212): CMDERR is set, nothing else is written, and the
write answers OKAY. -/
def raiseCommandError (s : State) : State :=
  answer s { s.block with cmderr := true } .illegalCommand

/-- `raise DecodeError(addr)` of a read (60_exceptions.md R211): DECERR with 0x00000000, no change. -/
def raiseReadDecodeError (s : State) : State := answer s s.block (.read .decErr 0)

/-- `raise DecodeError(addr)` of a write (60_exceptions.md R211): DECERR, no change. -/
def raiseWriteDecodeError (s : State) : State := answer s s.block (.write .decErr)

/-- The first-free scan: the lowest index with `active = 0` (41_pool.md R172, R191). -/
def firstFree (voices : List Voice) : Option Nat :=
  voices.findIdx? (fun v => !v.active)

/-- One slot changed, the others as they are. -/
def modifyVoice (b : Block) (i : Nat) (f : Voice → Voice) : Block :=
  { b with voices := b.voices.modify i f }

/-- `NoteOn(n, v, a, d, s, r)` (41_pool.md R172): Start on the lowest free slot; with none free the
note is dropped (R173). -/
def poolNoteOn (P : Params) (b : Block) : Block :=
  match firstFree b.voices with
  | some i => modifyVoice b i (voiceStart P b.args)
  | none => b

/-- `NoteOff(n)` on one slot (41_pool.md R175): Stop if it is active and plays the note. -/
def noteOffVoice (P : Params) (note : F32) (v : Voice) : Voice :=
  if v.active && P.f32.eq v.note note then voiceStop v else v

/-- `NoteOff(n)` (41_pool.md R175): every matching active slot; the velocity is not read (R177). -/
def poolNoteOff (P : Params) (b : Block) : Block :=
  { b with voices := b.voices.map (noteOffVoice P b.args.note) }

/-- `FreeAllVoices()` (41_pool.md R178): Stop on every slot. -/
def poolAllOff (b : Block) : Block := { b with voices := b.voices.map voiceStop }

/-- The pool's Initialize (41_pool.md R170): every slot and MIX_OUT; STATUS and the argument
registers are not written. -/
def poolInit (P : Params) (b : Block) : Block :=
  { b with voices := b.voices.map (fun _ => voiceInit P), mixOut := posZero }

/-- The loop of TICK (41_pool.md R180): the slots in ascending order, each processed once, its
sample added to the accumulator. -/
def mixLoop (P : Params) (acc : F32) : List Voice → List Voice × F32
  | [] => ([], acc)
  | v :: vs =>
    let rest := mixLoop P (P.f32.add acc (voiceProcess P v).2) vs
    (voiceTick P v :: rest.1, rest.2)

/-- TICK (41_pool.md R180): the pool's ProcessSample, the sum starting at `+0.0` (R181). -/
def poolTick (P : Params) (b : Block) : Block :=
  let m := mixLoop P posZero b.voices
  { b with voices := m.1, mixOut := m.2 }

/-- The routing of a NoteOn event (42_dispatch.md R200, R201): zero velocity means NoteOff. -/
def routeNoteOn (P : Params) (b : Block) : Block :=
  if P.f32.eq b.args.vel posZero then poolNoteOff P b else poolNoteOn P b

/-- The reset input (70_reset_and_hazards.md R240): the block as after reset, with the slots it has
(R243); the inputs still to come and the history are the outside's. -/
def hardReset (P : Params) (s : State) : State :=
  { s with block := blockReset P s.block.nVoices }

/-- What the next input asks of the block. -/
inductive Demand where
  /-- Nothing is presented. -/
  | idle
  /-- The reset input. -/
  | reset (s : State)
  /-- A transaction, and the state with it taken from the inbox. -/
  | run (r : Request) (s : State)
  deriving DecidableEq, Repr

/-- The next input in the total order (20_memory.md R91). Of a control access and a TICK presented
together the TICK is first, and the access stays presented (R92). -/
def nextDemand (s : State) : Demand :=
  match s.inbox with
  | [] => .idle
  | .request r :: rest => .run r { s with inbox := rest }
  | .together a :: rest => .run .tick { s with inbox := .request (.control a) :: rest }
  | .reset :: rest => .reset { s with inbox := rest }

end Sys2Proof.Machine
end

