-- ==== Sys2Proof/Machine/Events.lean ====
section
/-! DEFINITION. The EVENT command, one meaning per kind (42_dispatch.md R200 to R202); KIND 3 is
illegal and never reaches here (R106). -/

namespace Sys2Proof.Machine

/-- EVENT, KIND NoteOn (42_dispatch.md R200, R201). -/
def runEventNoteOn (P : Params) (s : State) : State := commandDone s (routeNoteOn P s.block)

def execEventNoteOn (s : State) : Result := .next (runEventNoteOn params s)

/-- EVENT, KIND NoteOff (42_dispatch.md R200); the velocity is ignored (41_pool.md R177). -/
def runEventNoteOff (P : Params) (s : State) : State := commandDone s (poolNoteOff P s.block)

def execEventNoteOff (s : State) : Result := .next (runEventNoteOff params s)

/-- EVENT, KIND Other: no state change (42_dispatch.md R202). -/
def runEventOther (s : State) : State := commandDone s s.block

def execEventOther (s : State) : Result := .next (runEventOther s)

end Sys2Proof.Machine
end

