-- ==== Sys2Proof/Machine/Pool.lean ====
section
/-! DEFINITION. The pool commands and the render port: NOP, INIT, NOTE_ON, NOTE_OFF, ALL_OFF, TICK
(41_pool.md). Each has a form over any parameters, `run…`, and its meaning, `exec…`, at `params`. -/

namespace Sys2Proof.Machine

/-- NOP (41_pool.md R185). -/
def runNop (s : State) : State := commandDone s s.block

def execNop (s : State) : Result := .next (runNop s)

/-- INIT (41_pool.md R170). -/
def runInit (P : Params) (s : State) : State := commandDone s (poolInit P s.block)

def execInit (s : State) : Result := .next (runInit params s)

/-- NOTE_ON (41_pool.md R172), the operands as the argument registers stand (70_reset_and_hazards.md R250). -/
def runNoteOn (P : Params) (s : State) : State := commandDone s (poolNoteOn P s.block)

def execNoteOn (s : State) : Result := .next (runNoteOn params s)

/-- NOTE_OFF (41_pool.md R175). -/
def runNoteOff (P : Params) (s : State) : State := commandDone s (poolNoteOff P s.block)

def execNoteOff (s : State) : Result := .next (runNoteOff params s)

/-- ALL_OFF (41_pool.md R178). -/
def runAllOff (s : State) : State := commandDone s (poolAllOff s.block)

def execAllOff (s : State) : Result := .next (runAllOff s)

/-- TICK (41_pool.md R180): the sample answered on the render port is the mix. -/
def runTick (P : Params) (s : State) : State :=
  answer s (poolTick P s.block) (.sample (poolTick P s.block).mixOut)

def execTick (s : State) : Result := .next (runTick params s)

end Sys2Proof.Machine
end

