-- ==== Sys2Proof/Machine/Slot.lean ====
section
/-! DEFINITION. The slot commands VSTART and VSTOP (40_voice.md R160, R162), which bypass the
allocator; a slot the pool does not have is a CommandError. -/

namespace Sys2Proof.Machine

/-- VSTART (40_voice.md R160): Start on the slot, whatever its state (R134). -/
def runVstart (P : Params) (slot : SlotField) (s : State) : State :=
  if s.block.nVoices ≤ slot.toNat then raiseCommandError s
  else commandDone s (modifyVoice s.block slot.toNat (voiceStart P s.block.args))

def execVstart (slot : SlotField) (s : State) : Result := .next (runVstart params slot s)

/-- VSTOP (40_voice.md R162): Stop on the slot, whatever its note and state. -/
def runVstop (slot : SlotField) (s : State) : State :=
  if s.block.nVoices ≤ slot.toNat then raiseCommandError s
  else commandDone s (modifyVoice s.block slot.toNat voiceStop)

def execVstop (slot : SlotField) (s : State) : Result := .next (runVstop slot s)

end Sys2Proof.Machine
end

