-- ==== Sys2Proof/Machine/Bus.lean ====
section
/-! DEFINITION. The control port: RD and WR (20_memory.md R80), and the execution of a word written
to CMD (30_encoding.md R100). -/

namespace Sys2Proof.Machine

/-- `ControlRead(addr, n)` (20_memory.md R80): the register's value, no state change. -/
def runRd (addr : Addr) (n : Nat) (s : State) : State :=
  match decodeRead s.block.nVoices addr n with
  | .ok t => answer s s.block (.read .okay (readValue s.block t))
  | .error _ => raiseReadDecodeError s

def execRd (addr : Addr) (n : Nat) (s : State) : Result := .next (runRd addr n s)

/-- A legal command (30_encoding.md R100). -/
def runCommand (P : Params) (c : Command) (s : State) : State :=
  match c with
  | .nop => runNop s
  | .init => runInit P s
  | .noteOn => runNoteOn P s
  | .noteOff => runNoteOff P s
  | .allOff => runAllOff s
  | .eventNoteOn => runEventNoteOn P s
  | .eventNoteOff => runEventNoteOff P s
  | .eventOther => runEventOther s
  | .vstart slot => runVstart P slot s
  | .vstop slot => runVstop slot s

/-- `ExecuteCommand(w)` (30_encoding.md R100); an illegal word raises CommandError (R105). -/
def executeCommand (P : Params) (w : Word) (s : State) : State :=
  match decodeCommand w with
  | .ok c => runCommand P c s
  | .error _ => raiseCommandError s

/-- The STATUS write (10_state.md R42): data bit 0 clears CMDERR, the other bits are ignored. -/
def statusWrite (b : Block) (d : Word) : Block :=
  if d.getLsbD 0 then { b with cmderr := false } else b

/-- `ControlWrite(addr, n, d)` (20_memory.md R80). -/
def runWr (P : Params) (addr : Addr) (n : Nat) (d : Word) (s : State) : State :=
  match decodeWrite s.block.nVoices addr n with
  | .ok .cmd => executeCommand P d s
  | .ok .status => answer s (statusWrite s.block d) (.write .okay)
  | .ok (.arg r) => answer s { s.block with args := argWrite s.block.args d r } (.write .okay)
  | .error _ => raiseWriteDecodeError s

def execWr (addr : Addr) (n : Nat) (data : Word) (s : State) : Result :=
  .next (runWr params addr n data s)

end Sys2Proof.Machine
end

