-- ==== Sys2Proof/Machine/Dispatch.lean ====
section
/-! DEFINITION. One arm per instruction, each a direct call of its meaning. -/

namespace Sys2Proof.Machine

def exec (i : Instr) (s : State) : Host.Outcome State Fault Refusal :=
  match i with
  | .nop => Sys2Proof.Machine.execNop s
  | .init => Sys2Proof.Machine.execInit s
  | .noteOn => Sys2Proof.Machine.execNoteOn s
  | .noteOff => Sys2Proof.Machine.execNoteOff s
  | .allOff => Sys2Proof.Machine.execAllOff s
  | .eventNoteOn => Sys2Proof.Machine.execEventNoteOn s
  | .eventNoteOff => Sys2Proof.Machine.execEventNoteOff s
  | .eventOther => Sys2Proof.Machine.execEventOther s
  | .vstart slot => Sys2Proof.Machine.execVstart slot s
  | .vstop slot => Sys2Proof.Machine.execVstop slot s
  | .tick => Sys2Proof.Machine.execTick s
  | .rd addr n => Sys2Proof.Machine.execRd addr n s
  | .wr addr n data => Sys2Proof.Machine.execWr addr n data s

end Sys2Proof.Machine
end

