-- ==== Sys2Proof/Machine/Step.lean ====
section
/-! DEFINITION. The step: the next input in the total order takes effect, whole (20_memory.md R90,
R91); with nothing presented the block keeps its state (60_exceptions.md R225, log 3). -/

namespace Sys2Proof.Machine

/-- One step of the machine. -/
def step (s : State) : Host.Outcome State Fault Refusal :=
  match nextDemand s with
  | .idle => .next s
  | .reset t => .next (hardReset params t)
  | .run r t => exec (decode r) t

/-- `s` with a row's bits presented as the next transaction (log 13): ahead of every input that
waits. Bits that no transaction has present nothing. -/
def State.withFetchWord (s : State) (nbits w : Nat) : State :=
  match tableRequest nbits w with
  | some r => { s with inbox := .request r :: s.inbox }
  | none => s

end Sys2Proof.Machine
end

