-- ==== Sys2Proof/Machine/Transact.lean ====
section
/-! DEFINITION. The machine with its parameters as an argument (00_scope.md, "Every parameter below
is an argument of the model"): `exec` and `step` are these at `params`. -/

namespace Sys2Proof.Machine

/-- One transaction, for any parameters. -/
def transact (P : Params) (i : Instr) (s : State) : State :=
  match i with
  | .nop => runNop s
  | .init => runInit P s
  | .noteOn => runNoteOn P s
  | .noteOff => runNoteOff P s
  | .allOff => runAllOff s
  | .eventNoteOn => runEventNoteOn P s
  | .eventNoteOff => runEventNoteOff P s
  | .eventOther => runEventOther s
  | .vstart slot => runVstart P slot s
  | .vstop slot => runVstop slot s
  | .tick => runTick P s
  | .rd addr n => runRd addr n s
  | .wr addr n data => runWr P addr n data s

/-- One step, for any parameters. -/
def advance (P : Params) (s : State) : State :=
  match nextDemand s with
  | .idle => s
  | .reset t => hardReset P t
  | .run r t => transact P (decode r) t

/-- `n` steps. -/
def advanceMany (P : Params) : Nat → State → State
  | 0, s => s
  | n + 1, s => advanceMany P n (advance P s)

/-- A sequence of transactions, one after the other. -/
def transactAll (P : Params) : List Instr → State → State
  | [], s => s
  | i :: is, s => transactAll P is (transact P i s)

end Sys2Proof.Machine
end

