-- ==== Sys2Proof/Safety.lean ====
section
/-! DEFINITION. What claims are stated in: a history without errors (60_exceptions.md R229), legal
words and permitted accesses by their offsets, and the named properties of the envelope parameter
(40_voice.md R156), which are premises of claims and are built into nothing. -/

namespace Sys2Proof

open Sys2Proof.Machine

/-- The answer records no error (60_exceptions.md R229). -/
def Machine.Event.clean : Event → Bool
  | .read .okay _ => true
  | .read .decErr _ => false
  | .write .okay => true
  | .write .decErr => false
  | .illegalCommand => false
  | .sample _ => true

/-- "No error recorded" (60_exceptions.md R229). -/
def Machine.State.errorFree (s : State) : Bool := s.log.all Event.clean

/-- The pool's capacity is legal (00_scope.md R8). -/
def Machine.State.wf (s : State) : Bool := s.block.wf

/-- Illegal words, condition by condition (30_encoding.md R105 (a) to (f)). -/
def illegalWord (n : Nat) (w : Word) : Prop :=
  let op := w.toNat % 16
  let slot := w.toNat / 2 ^ 8 % 32
  let kind := w.toNat / 2 ^ 16 % 4
  (w.toNat / 2 ^ 4 % 16 ≠ 0 ∨ w.toNat / 2 ^ 13 % 8 ≠ 0 ∨ w.toNat / 2 ^ 18 ≠ 0) ∨
  8 ≤ op ∨
  (slot ≠ 0 ∧ op ≠ 6 ∧ op ≠ 7) ∨
  (kind ≠ 0 ∧ op ≠ 5) ∨
  ((op = 6 ∨ op = 7) ∧ n ≤ slot) ∨
  (op = 5 ∧ kind = 3)

/-- The legal words, listed (30_encoding.md R104). -/
def legalWord (n : Nat) (w : Word) : Prop :=
  w = 0x00000000#32 ∨ w = 0x00000001#32 ∨ w = 0x00000002#32 ∨ w = 0x00000003#32 ∨
  w = 0x00000004#32 ∨ w = 0x00000005#32 ∨ w = 0x00010005#32 ∨ w = 0x00020005#32 ∨
  (∃ slot, slot < n ∧ w = BitVec.ofNat 32 (0x00000006 + slot * 2 ^ 8)) ∨
  (∃ slot, slot < n ∧ w = BitVec.ofNat 32 (0x00000007 + slot * 2 ^ 8))

/-- The accesses a read may make (20_memory.md R76, offsets of 10_state.md R55). -/
def readPermitted (n : Nat) (addr : Addr) (size : Nat) : Prop :=
  size = 4 ∧
    (addr.toNat ∈ [0x000, 0x008, 0x00C, 0x010, 0x014, 0x020, 0x024, 0x028, 0x02C, 0x030, 0x034] ∨
      ∃ slot k, slot < n ∧ slot < 32 ∧ k < 8 ∧ addr.toNat = 0x800 + 0x40 * slot + 4 * k)

/-- The accesses a write may make (20_memory.md R76, offsets of 10_state.md R55). -/
def writePermitted (addr : Addr) (size : Nat) : Prop :=
  size = 4 ∧ addr.toNat ∈ [0x004, 0x008, 0x020, 0x024, 0x028, 0x02C, 0x030, 0x034]

/-- The envelope after `k` steps with the gate held at one value. -/
def egAfter (E : EgPrim) (gate : Bool) : Nat → EgState → EgState
  | 0, e => e
  | k + 1, e => egAfter E gate k (E.step e gate).1

/-- The amplitude of step `k`, counted from 0, with the gate held at one value. -/
def egAmplitude (E : EgPrim) (gate : Bool) (k : Nat) (e : EgState) : F32 :=
  (E.step (egAfter E gate k e) gate).2

/-- The envelope states the block can bring about, with the shape configured last: sustain, attack,
decay, release (00_scope.md R12; log 18). -/
inductive EgShaped (E : EgPrim) (sr : F32) : F32 → F32 → F32 → F32 → EgState → Prop
  | configured (sus atk dec rel : F32) :
      EgShaped E sr sus atk dec rel (E.config (E.init sr) sus atk dec rel)
  | reconfigured {sus atk dec rel : F32} {e : EgState} (sus' atk' dec' rel' : F32) :
      EgShaped E sr sus atk dec rel e →
      EgShaped E sr sus' atk' dec' rel' (E.config e sus' atk' dec' rel')
  | restarted {sus atk dec rel : F32} {e : EgState} :
      EgShaped E sr sus atk dec rel e → EgShaped E sr sus atk dec rel (E.restart e)
  | stepped {sus atk dec rel : F32} {e : EgState} (gate : Bool) :
      EgShaped E sr sus atk dec rel e → EgShaped E sr sus atk dec rel (E.step e gate).1

/-- EG_RANGE (40_voice.md R156): every amplitude is in [0, 1]. -/
def egRange (E : EgPrim) : Prop :=
  ∀ e gate, f32IsNaN (E.step e gate).2 = false ∧ f32Lt (E.step e gate).2 posZero = false ∧
    f32Lt 0x3F800000#32 (E.step e gate).2 = false

/-- EG_RESTART (40_voice.md R156): after a restart the gated steps trace the attack as from a state
just after init and config with the same shape. -/
def egRestart (E : EgPrim) : Prop :=
  ∀ sr sus atk dec rel e k, EgShaped E sr sus atk dec rel e →
    egAmplitude E true k (E.restart e) =
      egAmplitude E true k (E.config (E.init sr) sus atk dec rel)

/-- EG_RELEASE_ENDS (40_voice.md R156) with its bound, a function of the configured release time and
the sample rate. -/
def egReleaseEndsWithin (E : EgPrim) (bound : F32 → F32 → Nat) : Prop :=
  ∀ sr sus atk dec rel e, EgShaped E sr sus atk dec rel e →
    ∃ k, 1 ≤ k ∧ k ≤ bound rel sr ∧ E.running (egAfter E false k e) = false

/-- EG_RELEASE_ENDS (40_voice.md R156). -/
def egReleaseEnds (E : EgPrim) : Prop := ∃ bound, egReleaseEndsWithin E bound

/-- EG_RELEASE_DECREASING (40_voice.md R156) for the run from `e`: strictly decreasing, down to zero. -/
def egReleaseDecreasingFrom (E : EgPrim) (e : EgState) : Prop :=
  ∀ k, E.running (egAfter E false k e) = true →
    (E.running (egAfter E false (k + 1) e) = true →
      f32Lt (egAmplitude E false (k + 1) e) (egAmplitude E false k e) = true) ∧
    (E.running (egAfter E false (k + 1) e) = false →
      f32Eq (egAmplitude E false k e) posZero = true)

/-- EG_HELD_RUNS (40_voice.md R156): while the gate is applied after a restart, EG.running stays 1. -/
def egHeldRuns (E : EgPrim) : Prop :=
  ∀ e k, E.running (egAfter E true (k + 1) (E.restart e)) = true

/-- A voice under EG_HELD_RUNS: Idle only with its gate down, and Sounding only with an envelope that
has been gated ever since a restart (40_voice.md R152). -/
def heldVoice (E : EgPrim) (v : Voice) : Prop :=
  (v.active = false → v.gate = false) ∧
  (v.active = true → v.gate = true → ∃ e k, v.eg = egAfter E true k (E.restart e))

end Sys2Proof
end

