-- ==== Sys2Proof/Certificates/Slice0/Obligations.lean ====
section
/-! DEFINITION. The statements for the provers. Each docstring names the rule it formalises. What a
statement says about `params` holds for every value of the OPEN parameters, which have no value. -/

open Sys2Proof Sys2Proof.Machine

namespace Sys2Proof

/-- A voice as Start leaves it (40_voice.md R131), field by field. -/
def startedVoice (v : Voice) (x : Args) : Voice where
  active := true
  gate := true
  note := x.note
  velocity := x.vel
  attack := x.attack
  decay := x.decay
  sustain := x.sustain
  release := x.release
  osc := params.osc.setFreq v.osc (params.mtof x.note)
  eg := params.eg.restart (params.eg.config v.eg x.sustain x.attack x.decay x.release)
  out := v.out

/-- A voice as Initialize leaves it (40_voice.md R130), field by field. -/
def initializedVoice : Voice where
  active := false
  gate := false
  note := 0x00000000#32
  velocity := 0x00000000#32
  attack := params.defaultAttack
  decay := params.defaultDecay
  sustain := params.defaultSustain
  release := params.defaultRelease
  osc := params.osc.init params.sampleRate.toF32
  eg := params.eg.config (params.eg.init params.sampleRate.toF32)
    params.defaultSustain params.defaultAttack params.defaultDecay params.defaultRelease
  out := 0x00000000#32

/-- The voices after a NoteOff of `note` (41_pool.md R175). -/
def releasedVoices (note : F32) (voices : List Voice) : List Voice :=
  voices.map fun v =>
    if v.active = true ∧ params.f32.eq v.note note = true then { v with gate := false } else v

/-- The sample a voice gives to a TICK (40_voice.md R140). -/
def sampleOf (v : Voice) : F32 :=
  if v.active = true then
    params.f32.mul
      (params.f32.mul (params.osc.step v.osc).2 (params.f32.div v.velocity 0x42FE0000#32))
      (params.eg.step v.eg v.gate).2
  else 0x00000000#32

/-- A voice after a TICK (40_voice.md R140, 41_pool.md R180). -/
def tickedVoice (v : Voice) : Voice :=
  if v.active = true then
    { v with
      active := params.eg.running (params.eg.step v.eg v.gate).1
      eg := (params.eg.step v.eg v.gate).1
      osc := (params.osc.step v.osc).1
      out := sampleOf v }
  else { v with out := 0x00000000#32 }

/-- The oscillator's sample number `n`, counted from 0 (00_scope.md R11). -/
def oscSample (O : OscPrim) (n : Nat) (o : OscState) : F32 :=
  match n with
  | 0 => (O.step o).2
  | n + 1 => oscSample O n (O.step o).1

/-- How many voices are active. -/
def activeCount (voices : List Voice) : Nat := voices.countP (fun v => v.active)

/-- A pattern is a NaN (00_scope.md R18). -/
def isNaNPattern (a : F32) : Prop := 0x7F800000 < a.toNat % 2 ^ 31

/-- A pattern is finite (00_scope.md R18). -/
def isFinitePattern (a : F32) : Prop := a.toNat % 2 ^ 31 < 0x7F800000

/-- A word read back, at a state. -/
def readsAs (s : State) (addr : Addr) (d : Word) : Prop :=
  exec (.rd addr 4) s = .next { s with log := .read .okay d :: s.log }

/-- The voice's place in the gating state machine (40_voice.md R150). -/
inductive GatingState where
  | idle
  | sounding
  | releasing
  deriving DecidableEq, Repr

/-- Decoded from the two bits (40_voice.md R150). -/
def gatingState (v : Voice) : GatingState :=
  if v.active = true then if v.gate = true then .sounding else .releasing else .idle

end Sys2Proof

/-! Encoding. -/

/-- Decoding the transaction of a well-formed instruction gives it back (30_encoding.md R100 to
R110), every operand at every value. -/
def Obligations.DecodeOfEncodeIsIdentity : Prop :=
  ∀ i : Instr, i.wellFormed = true → decode (encode i) = i

/-- Every request either port can present is the transaction of the instruction it decodes to: no
bit is dropped (30_encoding.md R101). -/
def Obligations.EncodeOfDecodeIsIdentity : Prop :=
  ∀ r : Request, encode (decode r) = r

/-- Four command words written out from 30_encoding.md R102 and R104 (NOTE_ON, EVENT of kind Other,
VSTART 3, VSTOP 31) decode to what they stand for, and so does the TICK, which has no bits (R109).
That decodeTableWord reads a row's bits as a write to CMD, and no bits as the TICK, is the model's
choice (log 13). -/
def Obligations.WrittenOutWordsDecode : Prop :=
  decodeTableWord 32 0b00000000000000000000000000000010 = some .noteOn ∧
  decodeTableWord 32 0b00000000000000100000000000000101 = some .eventOther ∧
  decodeTableWord 32 0b00000000000000000000001100000110 = some (.vstart 3) ∧
  decodeTableWord 32 0b00000000000000000001111100000111 = some (.vstop 31) ∧
  decodeTableWord 0 0 = some .tick

/-- The model's decoder, with the slot range that VSTART and VSTOP check themselves, accepts just the
words on R104's list and rejects just those that meet one of R105's conditions, so the list is the
complement of the conditions, for every legal capacity; and the masks that well-formedness compares
with match just the words the decoder accepts (30_encoding.md R100, R104, R105). -/
def Obligations.LegalListComplementsIllegalConditions : Prop :=
  ∀ (n : Nat) (w : Word), n ≤ 32 →
    (legalWord n w ↔ ∃ c, decodeCommand w = .ok c ∧
      ∀ slot, c = .vstart slot ∨ c = .vstop slot → slot.toNat < n) ∧
    (illegalWord n w ↔ ∀ c, decodeCommand w = .ok c →
      ∃ slot, (c = .vstart slot ∨ c = .vstop slot) ∧ n ≤ slot.toNat) ∧
    (legalWord n w ↔ ¬ illegalWord n w) ∧
    (isCommandWord w = true ↔ ∃ c, decodeCommand w = .ok c)

/-! The command decoder as the machine runs it. -/

/-- An illegal word written to CMD sets CMDERR, answers OKAY and has no other effect (R105, R212). -/
def Obligations.IllegalWordSetsOnlyCmderr : Prop :=
  ∀ (s : State) (w : Word), illegalWord s.block.nVoices w →
    exec (.wr 0x004#12 4 w) s =
      .next { s with
        block := { s.block with cmderr := true }
        log := .illegalCommand :: s.log }

/-- A legal word written to CMD executes, answers OKAY, and leaves CMDERR, the argument registers
and the number of slots as they are (30_encoding.md R104, 10_state.md R42, R46). -/
def Obligations.LegalWordExecutesWithoutError : Prop :=
  ∀ (s : State) (w : Word), s.wf = true → legalWord s.block.nVoices w →
    ∃ t, exec (.wr 0x004#12 4 w) s = .next t ∧
      t.log = .write .okay :: s.log ∧ t.inbox = s.inbox ∧
      t.block.cmderr = s.block.cmderr ∧ t.block.args = s.block.args ∧
      t.block.nVoices = s.block.nVoices

/-- A write of a command's word to CMD is that command (10_state.md R41, 30_encoding.md R100). -/
def Obligations.CmdWriteRunsTheCommand : Prop :=
  ∀ (c : Command) (s : State), exec (.wr 0x004#12 4 (encodeCommand c)) s = exec c.toInstr s

/-! The step. -/

/-- A step runs the transaction presented: at the head of the inbox, the well-formed instruction `i`
takes effect whole, on the state with its request taken off (20_memory.md R90, R91; log 1). -/
def Obligations.StepRunsThePresentedTransaction : Prop :=
  ∀ (s : State) (i : Instr) (rest : List Input), i.wellFormed = true →
    s.inbox = .request (encode i) :: rest → step s = exec i { s with inbox := rest }

/-- With nothing presented a step changes nothing: the model's choice (log 3). -/
def Obligations.StepWithNothingPresentedIsIdle : Prop :=
  ∀ s : State, s.inbox = [] → step s = .next s

/-- Of a control access and a TICK presented together the TICK takes effect first, and the next step
runs the access on the state it left (20_memory.md R92). -/
def Obligations.TickIsFirstWhenPresentedTogether : Prop :=
  ∀ (s : State) (a : Access) (rest : List Input), s.inbox = .together a :: rest →
    ∃ t, step s = exec .tick { s with inbox := .request (.control a) :: rest } ∧
      step s = .next t ∧ step t = exec (decode (.control a)) { t with inbox := rest }

/-- No state stops the machine (60_exceptions.md R229). -/
def Obligations.EveryStepAnswersANextState : Prop :=
  ∀ s : State, ∃ t, step s = .next t

/-- Every transaction gives exactly one answer and takes none of the other inputs (20_memory.md R80,
60_exceptions.md R229). -/
def Obligations.EveryTransactionAnswersOnce : Prop :=
  ∀ (i : Instr) (s : State), ∃ t e, exec i s = .next t ∧ t.log = e :: s.log ∧ t.inbox = s.inbox

/-- `exec` is the machine over arbitrary parameters, at the parameters without a value; the
statements about `advance` reach the machine through this one. -/
def Obligations.StepIsAdvanceAtParams : Prop :=
  ∀ s : State, step s = .next (advance params s)

/-! Reset. -/

/-- The state after reset (70_reset_and_hazards.md R240, 10_state.md R34); that it has the default
capacity 8 (00_scope.md R8) is the model's choice (log 5). -/
def Obligations.ResetStateHoldsTheResetValues : Prop :=
  State.reset.block.cmderr = false ∧
  State.reset.block.args = ⟨0x00000000#32, 0x00000000#32, 0x00000000#32, 0x00000000#32,
    0x00000000#32, 0x00000000#32⟩ ∧
  State.reset.block.mixOut = 0x00000000#32 ∧
  State.reset.block.voices = List.replicate 8 initializedVoice

/-- The reset input, at any state: the reset values in every register and every slot, the pool as
large as before (70_reset_and_hazards.md R240, R243). -/
def Obligations.ResetInputRestoresTheResetValues : Prop :=
  ∀ (s : State) (rest : List Input), s.inbox = .reset :: rest →
    step s = .next { s with
      block := {
        cmderr := false
        args := ⟨0x00000000#32, 0x00000000#32, 0x00000000#32, 0x00000000#32, 0x00000000#32,
          0x00000000#32⟩
        mixOut := 0x00000000#32
        voices := List.replicate s.block.nVoices initializedVoice }
      inbox := rest }

/-! The control port. -/

/-- Reads of ID, STATUS, MIX_OUT and the argument registers (10_state.md R40, R42, R45, R46). -/
def Obligations.ReadsOfGlobalRegisters : Prop :=
  ∀ s : State, s.wf = true →
    readsAs s 0x000#12 (BitVec.ofNat 32 s.block.nVoices) ∧
    readsAs s 0x008#12 (if s.block.cmderr = true then 0x00000001#32 else 0x00000000#32) ∧
    readsAs s 0x014#12 s.block.mixOut ∧
    readsAs s 0x020#12 s.block.args.note ∧
    readsAs s 0x024#12 s.block.args.vel ∧
    readsAs s 0x028#12 s.block.args.attack ∧
    readsAs s 0x02C#12 s.block.args.decay ∧
    readsAs s 0x030#12 s.block.args.sustain ∧
    readsAs s 0x034#12 s.block.args.release

/-- ACTIVE and GATE: bit i is the bit of slot i, the bits of absent slots read 0 (10_state.md R43, R44). -/
def Obligations.ReadsOfActiveAndGate : Prop :=
  ∀ s : State, s.wf = true → ∃ active gate : Word,
    readsAs s 0x00C#12 active ∧ readsAs s 0x010#12 gate ∧
    (∀ i v, s.block.voices[i]? = some v →
      active.getLsbD i = v.active ∧ gate.getLsbD i = v.gate) ∧
    (∀ i, s.block.nVoices ≤ i → active.getLsbD i = false ∧ gate.getLsbD i = false)

/-- The eight registers of slot i's window (20_memory.md R72, 10_state.md R48 to R53), STATE as its
table has it (R49). -/
def Obligations.ReadsOfVoiceWindow : Prop :=
  ∀ (s : State) (i : Nat) (v : Voice), s.wf = true → s.block.voices[i]? = some v →
    readsAs s (BitVec.ofNat 12 (0x800 + 0x40 * i)) (BitVec.ofNat 32
      ((if v.active = true then 1 else 0) + (if v.gate = true then 2 else 0) +
        4 * (if v.active = true then if v.gate = true then 1 else 2 else 0))) ∧
    readsAs s (BitVec.ofNat 12 (0x800 + 0x40 * i + 0x04)) v.note ∧
    readsAs s (BitVec.ofNat 12 (0x800 + 0x40 * i + 0x08)) v.velocity ∧
    readsAs s (BitVec.ofNat 12 (0x800 + 0x40 * i + 0x0C)) v.attack ∧
    readsAs s (BitVec.ofNat 12 (0x800 + 0x40 * i + 0x10)) v.decay ∧
    readsAs s (BitVec.ofNat 12 (0x800 + 0x40 * i + 0x14)) v.sustain ∧
    readsAs s (BitVec.ofNat 12 (0x800 + 0x40 * i + 0x18)) v.release ∧
    readsAs s (BitVec.ofNat 12 (0x800 + 0x40 * i + 0x1C)) v.out

/-- A read of any offset and any size changes no state: it answers, and nothing else
(10_state.md R56, 20_memory.md R81). -/
def Obligations.ReadsHaveNoSideEffect : Prop :=
  ∀ (s : State) (addr : Addr) (n : Nat), ∃ r d,
    exec (.rd addr n) s = .next { s with log := .read r d :: s.log } ∧
      (r = .okay ↔ readPermitted s.block.nVoices addr n)

/-- An access the decoder does not permit answers DECERR: a read returns 0x00000000, a write stores
nothing and executes no command, and nothing changes (60_exceptions.md R211, R214). -/
def Obligations.RefusedAccessAnswersDecerr : Prop :=
  ∀ (s : State) (addr : Addr) (n : Nat),
    (¬ readPermitted s.block.nVoices addr n →
      exec (.rd addr n) s = .next { s with log := .read .decErr 0x00000000#32 :: s.log }) ∧
    (¬ writePermitted addr n → ∀ d : Word,
      exec (.wr addr n d) s = .next { s with log := .write .decErr :: s.log })

/-- A write to an argument register stores the pattern unchanged, whatever it is, and nothing else
(10_state.md R46, R47). -/
def Obligations.ArgumentWriteStoresThePattern : Prop :=
  ∀ (s : State) (d : Word),
    let stored (x : Args) : Result :=
      .next { s with block := { s.block with args := x }, log := .write .okay :: s.log }
    exec (.wr 0x020#12 4 d) s = stored { s.block.args with note := d } ∧
    exec (.wr 0x024#12 4 d) s = stored { s.block.args with vel := d } ∧
    exec (.wr 0x028#12 4 d) s = stored { s.block.args with attack := d } ∧
    exec (.wr 0x02C#12 4 d) s = stored { s.block.args with decay := d } ∧
    exec (.wr 0x030#12 4 d) s = stored { s.block.args with sustain := d } ∧
    exec (.wr 0x034#12 4 d) s = stored { s.block.args with release := d }

/-- A STATUS write with data bit 0 set clears CMDERR, one with it clear leaves CMDERR; the other
bits are ignored and nothing else changes (10_state.md R42). -/
def Obligations.StatusWriteClearsCmderrOnOne : Prop :=
  ∀ (s : State) (d : Word),
    exec (.wr 0x008#12 4 d) s = .next { s with
      block := { s.block with
        cmderr := if d.toNat % 2 = 1 then false else s.block.cmderr }
      log := .write .okay :: s.log }

/-- CMDERR is sticky: only a STATUS write with bit 0 set, or reset, clears it (10_state.md R42,
60_exceptions.md R217). -/
def Obligations.CmderrIsSticky : Prop :=
  ∀ s t : State, s.block.cmderr = true → step s = .next t → t.block.cmderr = false →
    (∃ rest, s.inbox = .reset :: rest) ∨
    ∃ d rest, s.inbox = .request (.control (.write 0x008#12 4 d)) :: rest ∧ d.toNat % 2 = 1

/-- Only a register write to an argument register changes one: INIT, every command and TICK leave
them (10_state.md R46). -/
def Obligations.OnlyArgumentWritesChangeArguments : Prop :=
  ∀ (i : Instr) (s t : State), exec i s = .next t → t.block.args ≠ s.block.args →
    ∃ addr d, i = .wr addr 4 d ∧ addr.toNat ∈ [0x020, 0x024, 0x028, 0x02C, 0x030, 0x034]

/-- A master that views a word as bytes sees bits [8k+7 : 8k] in lane k (20_memory.md R78). -/
def Obligations.ByteLanesAreLittleEndian : Prop :=
  ∀ (w : Word) (k : Fin 4) (j : Nat), j < 8 → (byteLane w k).getLsbD j = w.getLsbD (8 * k.val + j)

/-! The commands. -/

/-- NOP and EVENT of kind Other leave every register unchanged (41_pool.md R185, 42_dispatch.md R202). -/
def Obligations.NopAndEventOtherChangeNothing : Prop :=
  ∀ (i : Instr) (s : State), i = .nop ∨ i = .eventOther →
    exec i s = .next { s with log := .write .okay :: s.log }

/-- INIT initializes every slot and writes +0.0 to MIX_OUT; STATUS and the argument registers are not
written (41_pool.md R170, 40_voice.md R130). -/
def Obligations.InitResetsVoicesAndMix : Prop :=
  ∀ s : State, exec .init s = .next { s with
    block := { s.block with
      voices := List.replicate s.block.nVoices initializedVoice
      mixOut := 0x00000000#32 }
    log := .write .okay :: s.log }

/-- NOTE_ON starts the lowest free slot, whatever its gate, from the argument registers, and no
other; on a full pool it is dropped and no state changes (41_pool.md R172, R173, R191). -/
def Obligations.NoteOnStartsTheLowestFreeSlotOrDrops : Prop :=
  ∀ s : State,
    (∀ (k : Nat) (v : Voice), s.block.voices[k]? = some v → v.active = false →
      (∀ (j : Nat) (w : Voice), j < k → s.block.voices[j]? = some w → w.active = true) →
      exec .noteOn s = .next { s with
        block := { s.block with voices := s.block.voices.set k (startedVoice v s.block.args) }
        log := .write .okay :: s.log }) ∧
    ((∀ v ∈ s.block.voices, v.active = true) →
      exec .noteOn s = .next { s with log := .write .okay :: s.log })

/-- NOTE_OFF, and EVENT of kind NoteOff, lower the gate of every active slot whose note matches
ARG_NOTE, and change nothing else (41_pool.md R175, 42_dispatch.md R200). -/
def Obligations.NoteOffReleasesEveryMatchingSlot : Prop :=
  ∀ (i : Instr) (s : State), i = .noteOff ∨ i = .eventNoteOff →
    exec i s = .next { s with
      block := { s.block with voices := releasedVoices s.block.args.note s.block.voices }
      log := .write .okay :: s.log }

/-- NOTE_OFF does not read ARG_VEL: two states that differ only there end up differing only there
(41_pool.md R177). -/
def Obligations.NoteOffIgnoresTheReleaseVelocity : Prop :=
  ∀ (i : Instr) (s : State) (vel : F32) (t t' : State), i = .noteOff ∨ i = .eventNoteOff →
    exec i s = .next t →
    exec i { s with block := { s.block with args := { s.block.args with vel := vel } } } = .next t' →
    t' = { t with block := { t.block with args := { t.block.args with vel := vel } } }

/-- ALL_OFF lowers every gate, active or not, and changes nothing else (41_pool.md R178). -/
def Obligations.AllOffLowersEveryGate : Prop :=
  ∀ s : State, exec .allOff s = .next { s with
    block := { s.block with voices := s.block.voices.map fun v => { v with gate := false } }
    log := .write .okay :: s.log }

/-- EVENT of kind NoteOn with velocity +0.0 or -0.0 is a NoteOff of ARG_NOTE (42_dispatch.md R200, R201). -/
def Obligations.ZeroVelocityNoteOnEventIsNoteOff : Prop :=
  ∀ s : State, s.block.args.vel = 0x00000000#32 ∨ s.block.args.vel = 0x80000000#32 →
    exec .eventNoteOn s = .next { s with
      block := { s.block with voices := releasedVoices s.block.args.note s.block.voices }
      log := .write .okay :: s.log }

/-- EVENT of kind NoteOn with any other velocity, a NaN or a subnormal included, is a NoteOn: it
starts the lowest free slot, or drops the note when there is none (42_dispatch.md R200, R201). -/
def Obligations.NonzeroVelocityNoteOnEventIsNoteOn : Prop :=
  ∀ s : State, s.block.args.vel ≠ 0x00000000#32 → s.block.args.vel ≠ 0x80000000#32 →
    (∀ (k : Nat) (v : Voice), s.block.voices[k]? = some v → v.active = false →
      (∀ (j : Nat) (w : Voice), j < k → s.block.voices[j]? = some w → w.active = true) →
      exec .eventNoteOn s = .next { s with
        block := { s.block with voices := s.block.voices.set k (startedVoice v s.block.args) }
        log := .write .okay :: s.log }) ∧
    ((∀ v ∈ s.block.voices, v.active = true) →
      exec .eventNoteOn s = .next { s with log := .write .okay :: s.log })

/-- VSTART starts its slot, Idle, Sounding or Releasing, and no other; a slot the pool does not have
is a CommandError (40_voice.md R131, R134, R160). -/
def Obligations.VstartStartsItsSlot : Prop :=
  ∀ (s : State) (slot : SlotField),
    (∀ v, s.block.voices[slot.toNat]? = some v →
      exec (.vstart slot) s = .next { s with
        block := { s.block with
          voices := s.block.voices.set slot.toNat (startedVoice v s.block.args) }
        log := .write .okay :: s.log }) ∧
    (s.block.nVoices ≤ slot.toNat →
      exec (.vstart slot) s = .next { s with
        block := { s.block with cmderr := true }
        log := .illegalCommand :: s.log })

/-- VSTOP lowers the gate of its slot, whatever its note and state, and nothing else; a slot the pool
does not have is a CommandError (40_voice.md R132, R162). -/
def Obligations.VstopLowersTheGateOfItsSlot : Prop :=
  ∀ (s : State) (slot : SlotField),
    (∀ v, s.block.voices[slot.toNat]? = some v →
      exec (.vstop slot) s = .next { s with
        block := { s.block with
          voices := s.block.voices.set slot.toNat { v with gate := false } }
        log := .write .okay :: s.log }) ∧
    (s.block.nVoices ≤ slot.toNat →
      exec (.vstop slot) s = .next { s with
        block := { s.block with cmderr := true }
        log := .illegalCommand :: s.log })

/-- A VSTOP followed by a VSTART of the same slot, no TICK between, leaves the block as the VSTART
alone does: the envelope never sees the stop (70_reset_and_hazards.md R252, 40_voice.md R133). -/
def Obligations.StopIsHiddenByALaterStart : Prop :=
  ∀ (s t u w : State) (slot : SlotField), exec (.vstop slot) s = .next t →
    exec (.vstart slot) t = .next u → exec (.vstart slot) s = .next w → u.block = w.block

/-! The render port. -/

/-- TICK: every slot is processed once, its sample captured in V_OUT; MIX_OUT and the sample answered
are the sum from +0.0 in ascending slot order (41_pool.md R180, 40_voice.md R140). -/
def Obligations.TickProcessesEveryVoiceAndMixes : Prop :=
  ∀ s : State,
    let mix := (s.block.voices.map sampleOf).foldl params.f32.add 0x00000000#32
    exec .tick s = .next { s with
      block := { s.block with
        voices := s.block.voices.map tickedVoice
        mixOut := mix }
      log := .sample mix :: s.log }

/-- A TICK of a pool with no active voice answers +0.0 and advances nothing, whatever the voices
store (40_voice.md R140, 41_pool.md R181). -/
def Obligations.TickOfAnIdlePoolIsSilence : Prop :=
  ∀ s : State, (∀ v ∈ s.block.voices, v.active = false) →
    exec .tick s = .next { s with
      block := { s.block with
        voices := s.block.voices.map fun v => { v with out := 0x00000000#32 }
        mixOut := 0x00000000#32 }
      log := .sample 0x00000000#32 :: s.log }

/-- What an active voice gives to the TICK number `n`, counted from 0, with no other transaction
between: the `n`-th oscillator sample, times the velocity over 127.0, times the `n`-th amplitude of
its envelope under the gate it has; the TICK at which the envelope stops included (40_voice.md R140). -/
def Obligations.VoiceOutputFollowsOscillatorAndEnvelope : Prop :=
  ∀ (P : Params) (s : State) (k n : Nat) (v : Voice), s.block.voices[k]? = some v →
    v.active = true →
    (∀ j, 1 ≤ j → j ≤ n → P.eg.running (egAfter P.eg v.gate j v.eg) = true) →
    ∃ w, (transactAll P (List.replicate (n + 1) .tick) s).block.voices[k]? = some w ∧
      w.out = P.f32.mul (P.f32.mul (oscSample P.osc n v.osc) (P.f32.div v.velocity 0x42FE0000#32))
        (egAmplitude P.eg v.gate n v.eg) ∧
      w.active = P.eg.running (egAfter P.eg v.gate (n + 1) v.eg) ∧
      w.gate = v.gate ∧ w.note = v.note ∧ w.velocity = v.velocity

/-- The mix is never -0.0: every step keeps MIX_OUT away from it (41_pool.md R181). -/
def Obligations.MixIsNeverNegativeZero : Prop :=
  ∀ s t : State, s.block.mixOut ≠ 0x80000000#32 → step s = .next t →
    t.block.mixOut ≠ 0x80000000#32

/-- The mix is the exact sum when every partial sum is representable: neither normalised nor clamped
(41_pool.md R182), under the default F32, whatever the oscillator, the envelope and NAN_OUT are. The
value of a pattern is in units of the smallest subnormal. -/
def Obligations.RepresentableMixIsTheExactSum : Prop :=
  ∀ (P : Params) (nan : ArithOp → F32 → F32 → NanPattern) (s : State), P.f32 = f32Ieee nan →
    (∀ v ∈ (transact P .tick s).block.voices, isFinitePattern v.out) →
    (∀ k, ∃ c : F32, isFinitePattern c ∧
      f32Value c =
        (((transact P .tick s).block.voices.take k).map fun v => f32Value v.out).sum) →
    isFinitePattern (transact P .tick s).block.mixOut ∧
      f32Value (transact P .tick s).block.mixOut =
        ((transact P .tick s).block.voices.map fun v => f32Value v.out).sum

/-- Velocity 127.0 gives gain 1.0 exactly and velocity +0.0 gives gain +0.0 (40_voice.md R143). That a
factor of 1.0 passes every pattern that is not a NaN as it is follows from the default F32 (00_scope.md
R14, R21), which the model presumes (log 12), as the other two clauses do. -/
def Obligations.FullVelocityIsUnitGain : Prop :=
  params.f32.div 0x42FE0000#32 0x42FE0000#32 = 0x3F800000#32 ∧
  params.f32.div 0x00000000#32 0x42FE0000#32 = 0x00000000#32 ∧
  ∀ a : F32, ¬ isNaNPattern a → params.f32.mul a 0x3F800000#32 = a

/-- Note matching and the zero test compare values: equal patterns or two zeros, and a NaN equals
nothing, itself included (00_scope.md R21, 41_pool.md R176). -/
def Obligations.EqualityIsQuiet : Prop :=
  ∀ a b : F32, params.f32.eq a b = true ↔
    ¬ isNaNPattern a ∧ ¬ isNaNPattern b ∧
      (a = b ∨ (a.toNat % 2 ^ 31 = 0 ∧ b.toNat % 2 ^ 31 = 0))

/-- A NaN operand gives a NaN, an infinite operand times a zero gives a NaN, whatever NAN_OUT is
(40_voice.md R144). -/
def Obligations.NanOperandsGiveNan : Prop :=
  (∀ a b : F32, isNaNPattern a ∨ isNaNPattern b →
    isNaNPattern (params.f32.add a b) ∧ isNaNPattern (params.f32.mul a b) ∧
      isNaNPattern (params.f32.div a b)) ∧
  ∀ a b : F32, a.toNat % 2 ^ 31 = 0x7F800000 → b.toNat % 2 ^ 31 = 0 →
    isNaNPattern (params.f32.mul a b) ∧ isNaNPattern (params.f32.mul b a)

/-! What each instruction may change. -/

/-- An active voice becomes inactive only in a TICK whose envelope step left EG.running = 0, or by
INIT (10_state.md R37, 40_voice.md R142). -/
def Obligations.OnlyEnvelopeEndOrInitDeactivates : Prop :=
  ∀ (i : Instr) (s t : State) (k : Nat) (v w : Voice), exec i s = .next t →
    s.block.voices[k]? = some v → t.block.voices[k]? = some w →
    v.active = true → w.active = false →
    (i = .tick ∧ params.eg.running (params.eg.step v.eg v.gate).1 = false) ∨
      i = .init ∨ i = .wr 0x004#12 4 0x00000001#32

/-- A voice becomes active only by Start: it then holds the argument registers and its gate is up, so
no voice goes from Idle to Releasing (10_state.md R37, 40_voice.md R151). -/
def Obligations.OnlyStartActivates : Prop :=
  ∀ (i : Instr) (s t : State) (k : Nat) (v w : Voice), exec i s = .next t →
    s.block.voices[k]? = some v → t.block.voices[k]? = some w →
    v.active = false → w.active = true → w = startedVoice v s.block.args

/-- The gating transitions, slot by slot: what each event does in each state (40_voice.md R151). The
events are TICK with r = EG.running after its envelope step, Stop and Start of the slot, and INIT. -/
def Obligations.GatingTransitionTable : Prop :=
  ∀ (s t : State) (slot : SlotField) (v w : Voice),
    s.block.voices[slot.toNat]? = some v → t.block.voices[slot.toNat]? = some w →
    (exec .tick s = .next t →
      let r := params.eg.running (params.eg.step v.eg v.gate).1
      gatingState w = if r = true then gatingState v else .idle) ∧
    (exec (.vstop slot) s = .next t →
      w.gate = false ∧ gatingState w = if gatingState v = .idle then .idle else .releasing) ∧
    (exec (.vstart slot) s = .next t → gatingState w = .sounding) ∧
    (exec .init s = .next t → gatingState w = .idle)

/-- The shape of a voice changes only by Start, which freezes the argument registers into it, or by
Initialize; no later write to an argument register changes it (10_state.md R38). -/
def Obligations.ShapeIsFrozenBetweenStarts : Prop :=
  ∀ (i : Instr) (s t : State) (k : Nat) (v w : Voice), exec i s = .next t →
    s.block.voices[k]? = some v → t.block.voices[k]? = some w →
    (w.attack = v.attack ∧ w.decay = v.decay ∧ w.sustain = v.sustain ∧ w.release = v.release) ∨
      w = startedVoice v s.block.args ∨ w = initializedVoice

/-- The oscillator and envelope states are written only by Initialize, Start and ProcessSample
(10_state.md R59). -/
def Obligations.HiddenStateHasThreeWriters : Prop :=
  ∀ (i : Instr) (s t : State) (k : Nat) (v w : Voice), exec i s = .next t →
    s.block.voices[k]? = some v → t.block.voices[k]? = some w →
    w.osc ≠ v.osc ∨ w.eg ≠ v.eg →
    w = startedVoice v s.block.args ∨ w = initializedVoice ∨ (i = .tick ∧ v.active = true)

/-- V_OUT and MIX_OUT hold the values of the last TICK: no command but INIT, and no register access,
changes them (70_reset_and_hazards.md R256). -/
def Obligations.CaptureRegistersLagCommands : Prop :=
  ∀ (i : Instr) (s t : State), exec i s = .next t → i ≠ .tick → i ≠ .init →
    i ≠ .wr 0x004#12 4 0x00000001#32 →
    t.block.mixOut = s.block.mixOut ∧
      t.block.voices.map Voice.out = s.block.voices.map Voice.out

/-! Invariants and runs. -/

/-- The pool keeps its slots: every step leaves their number, and a legal capacity stays legal
(10_state.md R39, 00_scope.md R8). -/
def Obligations.PoolCapacityIsFixed : Prop :=
  ∀ s t : State, s.wf = true → step s = .next t →
    t.block.nVoices = s.block.nVoices ∧ t.wf = true

/-- The invariants above hold at reset: a legal capacity (00_scope.md R8), a mix that is not -0.0, and
no CMDERR without an illegal command in the history. -/
def Obligations.ResetMeetsTheInvariants : Prop :=
  State.reset.wf = true ∧ State.reset.block.mixOut ≠ 0x80000000#32 ∧
    (State.reset.block.cmderr = true → .illegalCommand ∈ State.reset.log)

/-- The history witnesses CMDERR: while it is set, the history holds an illegal command, so a history
without errors means CMDERR is 0 (60_exceptions.md R229; the history is the model's, log 2). -/
def Obligations.CmderrIsWitnessedByTheHistory : Prop :=
  ∀ s t : State, (s.block.cmderr = true → .illegalCommand ∈ s.log) → step s = .next t →
    (t.block.cmderr = true → .illegalCommand ∈ t.log) ∧
      (t.errorFree = true → t.block.cmderr = false)

/-- The capacity bound: M NOTE_ON commands in a row, from any state with A active voices, leave
min(N_VOICES, A + M) active voices (41_pool.md R192); that they stand in the inbox is the model's form
of the order of transactions (log 1). -/
def Obligations.CapacityBoundsPolyphony : Prop :=
  ∀ (s : State) (m : Nat) (rest : List Input),
    s.inbox = List.replicate m (.request (encode .noteOn)) ++ rest →
    ∃ t, Sys2Proof.core.run m s = .next t ∧ t.inbox = rest ∧
      activeCount t.block.voices = min s.block.nVoices (activeCount s.block.voices + m)

/-- Silence after release, for every envelope with EG_RELEASE_ENDS: a Releasing voice whose envelope
was configured with release time `rel` is Idle within the bound's number of TICKs, nothing else
presented (40_voice.md R142, R156, the property as log 18 reads it). -/
def Obligations.ReleasedVoiceFallsSilent : Prop :=
  ∀ (P : Params) (bound : F32 → F32 → Nat), egReleaseEndsWithin P.eg bound →
    ∀ (s : State) (k : Nat) (v : Voice) (sus atk dec rel : F32),
      s.block.voices[k]? = some v → v.active = true → v.gate = false →
      EgShaped P.eg P.sampleRate.toF32 sus atk dec rel v.eg →
      ∃ m, m ≤ bound rel P.sampleRate.toF32 ∧
        ∃ w, (transactAll P (List.replicate m .tick) s).block.voices[k]? = some w ∧
          w.active = false

/-- For every envelope with EG_HELD_RUNS no voice is Idle with its gate up: the invariant that says
so is kept by every step (40_voice.md R152, R156). -/
def Obligations.HeldEnvelopesNeverEndGated : Prop :=
  ∀ (P : Params), egHeldRuns P.eg → ∀ s : State,
    (∀ v ∈ s.block.voices, heldVoice P.eg v) →
    ∀ v ∈ (advance P s).block.voices, heldVoice P.eg v

/-- Re-trigger, for every envelope with EG_RESTART: the amplitudes of a voice started again while it
sounds are those of a freshly initialised envelope with the new shape, not a continuation of its
level (40_voice.md R134, R156, the property as log 18 reads it). -/
def Obligations.RetriggerRestartsTheAttack : Prop :=
  ∀ (P : Params), egRestart P.eg →
    ∀ (s : State) (slot : SlotField) (v : Voice) (sus atk dec rel : F32) (n : Nat),
      s.block.voices[slot.toNat]? = some v →
      EgShaped P.eg P.sampleRate.toF32 sus atk dec rel v.eg →
      ∃ w, (transact P (.vstart slot) s).block.voices[slot.toNat]? = some w ∧
        w.active = true ∧ w.gate = true ∧
        egAmplitude P.eg true n w.eg =
          egAmplitude P.eg true n (P.eg.config (P.eg.init P.sampleRate.toF32)
            s.block.args.sustain s.block.args.attack s.block.args.decay s.block.args.release)
end

