-- ==== Sys2Proof/Laws/Encoding.lean ====
section
/-! SUPPORT. The command decoder and its encoder, in both directions; what the decoder refuses. -/

namespace Sys2Proof

/-- The word of a command decodes to it. -/
theorem decodeCommand_encodeCommand (c : Command) : decodeCommand (encodeCommand c) = .ok c := by
  cases c with
  | vstart slot => revert slot; decide
  | vstop slot => revert slot; decide
  | _ => rfl

/-- A word as the sum of the fields of format C (30_encoding.md R102). -/
theorem word_eq_sum_of_fields (w : Word) :
    w.toNat = (opField w).toNat + 2 ^ 4 * (rsv0Field w).toNat + 2 ^ 8 * (slotField w).toNat +
      2 ^ 13 * (rsv1Field w).toNat + 2 ^ 16 * (kindField w).toNat + 2 ^ 18 * (rsv2Field w).toNat := by
  have h : w.toNat < 2 ^ 32 := w.isLt
  simp only [opField, rsv0Field, slotField, rsv1Field, kindField, rsv2Field,
    BitVec.extractLsb'_toNat, Nat.shiftRight_eq_div_pow]
  omega

/-- The words of VSTART and VSTOP as numbers. -/
theorem toNat_slot_word (slot : SlotField) :
    (encodeCommand (.vstart slot)).toNat = 6 + 2 ^ 8 * slot.toNat ∧
      (encodeCommand (.vstop slot)).toNat = 7 + 2 ^ 8 * slot.toNat := by
  revert slot; decide

/-- What the opcode map reads from the three fields, as the number they spell. -/
theorem encodeCommand_of_decodeOpcode {op : BitVec 4} {slot : SlotField} {kind : BitVec 2}
    {c : Command} (hop : ¬ 8 ≤ op.toNat) (hslot : ¬ (op ≠ 6 ∧ op ≠ 7 ∧ slot ≠ 0))
    (hkind : ¬ (op ≠ 5 ∧ kind ≠ 0)) (h : decodeOpcode op slot kind = .ok c) :
    (encodeCommand c).toNat = op.toNat + 2 ^ 8 * slot.toNat + 2 ^ 16 * kind.toNat := by
  have cases8 : op = 0 ∨ op = 1 ∨ op = 2 ∨ op = 3 ∨ op = 4 ∨ op = 5 ∨ op = 6 ∨ op = 7 := by
    clear hslot hkind h; revert op; decide
  rcases cases8 with rfl | rfl | rfl | rfl | rfl | rfl | rfl | rfl
  case inr.inr.inr.inr.inr.inl =>
    have slot0 : slot = 0 := by simpa using hslot
    subst slot0
    have kinds : kind = 0 ∨ kind = 1 ∨ kind = 2 ∨ kind = 3 := by
      clear hkind h; revert kind; decide
    rcases kinds with rfl | rfl | rfl | rfl <;> first | (cases h; rfl) | cases h
  case inr.inr.inr.inr.inr.inr.inl =>
    have kind0 : kind = 0 := by simpa using hkind
    cases h; subst kind0
    simpa using (toNat_slot_word slot).1
  case inr.inr.inr.inr.inr.inr.inr =>
    have kind0 : kind = 0 := by simpa using hkind
    cases h; subst kind0
    simpa using (toNat_slot_word slot).2
  all_goals
    have slot0 : slot = 0 := by simpa using hslot
    have kind0 : kind = 0 := by simpa using hkind
    cases h; subst slot0 kind0; rfl

/-- A word the decoder accepts is the word of the command it reads: every bit is accounted for. -/
theorem encodeCommand_of_decodeCommand {w : Word} {c : Command} (h : decodeCommand w = .ok c) :
    encodeCommand c = w := by
  have sum := word_eq_sum_of_fields w
  unfold decodeCommand at h
  split at h
  · cases h
  rename_i rsv
  simp only [not_or, ne_eq, not_not] at rsv
  obtain ⟨r0, r1, r2⟩ := rsv
  split at h
  · cases h
  split at h
  · cases h
  split at h
  · cases h
  rename_i hop hslot hkind
  apply BitVec.eq_of_toNat_eq
  rw [encodeCommand_of_decodeOpcode hop hslot hkind h, sum, r0, r1, r2]
  simp

/-- A 32-bit write to CMD: the command of a legal word, the plain write of an illegal one. -/
theorem decodeAccess_cmd (d : Word) :
    decodeAccess (.write cmdOffset 4 d) =
      match decodeCommand d with
      | .ok c => c.toInstr
      | .error _ => .wr cmdOffset 4 d := by
  unfold decodeAccess
  refine (if_pos ⟨rfl, rfl⟩).trans ?_
  cases decodeCommand d <;> rfl

/-- Any other write is itself. -/
theorem decodeAccess_other {addr : Addr} {n : Nat} {d : Word}
    (h : ¬ (addr = cmdOffset ∧ n = 4)) : decodeAccess (.write addr n d) = .wr addr n d := by
  simp [decodeAccess, h]

/-- The command of a word decodes from the transaction that carries it. -/
@[simp] theorem decode_commandRequest (c : Command) : decode (commandRequest c) = c.toInstr := by
  simp [decode, commandRequest, decodeAccess_cmd, decodeCommand_encodeCommand]

@[simp] theorem encode_toInstr (c : Command) : encode c.toInstr = commandRequest c := by
  cases c <;> rfl

/-- The words the decoder accepts are the opcode table's, and no other. -/
theorem isCommandWord_encodeCommand (c : Command) : isCommandWord (encodeCommand c) = true := by
  cases c with
  | vstart slot => revert slot; decide
  | vstop slot => revert slot; decide
  | _ => rfl

theorem isCommandWord_of_decodeCommand {w : Word} {c : Command} (h : decodeCommand w = .ok c) :
    isCommandWord w = true := by
  rw [← encodeCommand_of_decodeCommand h]
  exact isCommandWord_encodeCommand c

/-- A word whose fixed bits are those of a slot command is that command's word for its slot field. -/
theorem eq_slot_word {w k : Word} (h : w &&& 0xFFFFE0FF#32 = k) :
    w = k ||| ((slotField w).setWidth 32 <<< 8) := by
  subst h
  apply BitVec.eq_of_getLsbD_eq
  intro i hi
  simp only [slotField, BitVec.getLsbD_or, BitVec.getLsbD_and, BitVec.getLsbD_shiftLeft,
    BitVec.getLsbD_setWidth, BitVec.getLsbD_extractLsb']
  interval_cases i <;> simp

/-- The masks match only words of a command. -/
theorem encodeCommand_of_isCommandWord {w : Word} (h : isCommandWord w = true) :
    ∃ c, w = encodeCommand c := by
  simp only [isCommandWord, Bool.or_eq_true, beq_iff_eq, or_assoc] at h
  rcases h with h | h | h | h | h | h | h | h | h | h
  · exact ⟨.nop, h⟩
  · exact ⟨.init, h⟩
  · exact ⟨.noteOn, h⟩
  · exact ⟨.noteOff, h⟩
  · exact ⟨.allOff, h⟩
  · exact ⟨.eventNoteOn, h⟩
  · exact ⟨.eventNoteOff, h⟩
  · exact ⟨.eventOther, h⟩
  · exact ⟨.vstart (slotField w), eq_slot_word h⟩
  · exact ⟨.vstop (slotField w), eq_slot_word h⟩

end Sys2Proof
end

