-- ==== Sys2Proof/Laws/State.lean ====
section
/-! SUPPORT. What each update of the state changes, field by field, and `exec` and `step` as the
machine over arbitrary parameters. -/

namespace Sys2Proof.Machine

@[simp] theorem answer_block (s : State) (b : Block) (e : Event) : (answer s b e).block = b := rfl
@[simp] theorem answer_inbox (s : State) (b : Block) (e : Event) :
    (answer s b e).inbox = s.inbox := rfl
@[simp] theorem answer_log (s : State) (b : Block) (e : Event) :
    (answer s b e).log = e :: s.log := rfl

@[simp] theorem commandDone_block (s : State) (b : Block) : (commandDone s b).block = b := rfl
@[simp] theorem commandDone_inbox (s : State) (b : Block) :
    (commandDone s b).inbox = s.inbox := rfl
@[simp] theorem commandDone_log (s : State) (b : Block) :
    (commandDone s b).log = .write .okay :: s.log := rfl

@[simp] theorem raiseCommandError_block (s : State) :
    (raiseCommandError s).block = { s.block with cmderr := true } := rfl
@[simp] theorem raiseCommandError_inbox (s : State) :
    (raiseCommandError s).inbox = s.inbox := rfl
@[simp] theorem raiseCommandError_log (s : State) :
    (raiseCommandError s).log = .illegalCommand :: s.log := rfl

@[simp] theorem raiseReadDecodeError_block (s : State) :
    (raiseReadDecodeError s).block = s.block := rfl
@[simp] theorem raiseReadDecodeError_inbox (s : State) :
    (raiseReadDecodeError s).inbox = s.inbox := rfl
@[simp] theorem raiseReadDecodeError_log (s : State) :
    (raiseReadDecodeError s).log = .read .decErr 0 :: s.log := rfl

@[simp] theorem raiseWriteDecodeError_block (s : State) :
    (raiseWriteDecodeError s).block = s.block := rfl
@[simp] theorem raiseWriteDecodeError_inbox (s : State) :
    (raiseWriteDecodeError s).inbox = s.inbox := rfl
@[simp] theorem raiseWriteDecodeError_log (s : State) :
    (raiseWriteDecodeError s).log = .write .decErr :: s.log := rfl

@[simp] theorem modifyVoice_cmderr (b : Block) (i : Nat) (f : Voice → Voice) :
    (modifyVoice b i f).cmderr = b.cmderr := rfl
@[simp] theorem modifyVoice_args (b : Block) (i : Nat) (f : Voice → Voice) :
    (modifyVoice b i f).args = b.args := rfl
@[simp] theorem modifyVoice_mixOut (b : Block) (i : Nat) (f : Voice → Voice) :
    (modifyVoice b i f).mixOut = b.mixOut := rfl
@[simp] theorem modifyVoice_voices (b : Block) (i : Nat) (f : Voice → Voice) :
    (modifyVoice b i f).voices = b.voices.modify i f := rfl
@[simp] theorem modifyVoice_nVoices (b : Block) (i : Nat) (f : Voice → Voice) :
    (modifyVoice b i f).nVoices = b.nVoices := by simp [Block.nVoices]

@[simp] theorem poolNoteOff_cmderr (P : Params) (b : Block) :
    (poolNoteOff P b).cmderr = b.cmderr := rfl
@[simp] theorem poolNoteOff_args (P : Params) (b : Block) : (poolNoteOff P b).args = b.args := rfl
@[simp] theorem poolNoteOff_mixOut (P : Params) (b : Block) :
    (poolNoteOff P b).mixOut = b.mixOut := rfl
@[simp] theorem poolNoteOff_voices (P : Params) (b : Block) :
    (poolNoteOff P b).voices = b.voices.map (noteOffVoice P b.args.note) := rfl

@[simp] theorem poolAllOff_cmderr (b : Block) : (poolAllOff b).cmderr = b.cmderr := rfl
@[simp] theorem poolAllOff_args (b : Block) : (poolAllOff b).args = b.args := rfl
@[simp] theorem poolAllOff_mixOut (b : Block) : (poolAllOff b).mixOut = b.mixOut := rfl
@[simp] theorem poolAllOff_voices (b : Block) :
    (poolAllOff b).voices = b.voices.map voiceStop := rfl

@[simp] theorem poolInit_cmderr (P : Params) (b : Block) : (poolInit P b).cmderr = b.cmderr := rfl
@[simp] theorem poolInit_args (P : Params) (b : Block) : (poolInit P b).args = b.args := rfl
@[simp] theorem poolInit_mixOut (P : Params) (b : Block) : (poolInit P b).mixOut = posZero := rfl
@[simp] theorem poolInit_voices (P : Params) (b : Block) :
    (poolInit P b).voices = b.voices.map (fun _ => voiceInit P) := rfl

@[simp] theorem hardReset_block (P : Params) (s : State) :
    (hardReset P s).block = blockReset P s.block.nVoices := rfl
@[simp] theorem hardReset_inbox (P : Params) (s : State) : (hardReset P s).inbox = s.inbox := rfl
@[simp] theorem hardReset_log (P : Params) (s : State) : (hardReset P s).log = s.log := rfl

@[simp] theorem voiceStop_active (v : Voice) : (voiceStop v).active = v.active := rfl
@[simp] theorem voiceStop_gate (v : Voice) : (voiceStop v).gate = false := rfl
@[simp] theorem voiceStop_osc (v : Voice) : (voiceStop v).osc = v.osc := rfl
@[simp] theorem voiceStop_eg (v : Voice) : (voiceStop v).eg = v.eg := rfl
@[simp] theorem voiceStop_out (v : Voice) : (voiceStop v).out = v.out := rfl

@[simp] theorem voiceStart_active (P : Params) (x : Args) (v : Voice) :
    (voiceStart P x v).active = true := rfl
@[simp] theorem voiceStart_gate (P : Params) (x : Args) (v : Voice) :
    (voiceStart P x v).gate = true := rfl
@[simp] theorem voiceStart_out (P : Params) (x : Args) (v : Voice) :
    (voiceStart P x v).out = v.out := rfl
@[simp] theorem voiceStart_eg (P : Params) (x : Args) (v : Voice) :
    (voiceStart P x v).eg =
      P.eg.restart (P.eg.config v.eg x.sustain x.attack x.decay x.release) := rfl

/-- Start does not see a Stop before it (70_reset_and_hazards.md R252). -/
@[simp] theorem voiceStart_voiceStop (P : Params) (x : Args) (v : Voice) :
    voiceStart P x (voiceStop v) = voiceStart P x v := rfl

/-- `exec` is `transact` at `params`. -/
theorem exec_eq_transact (i : Instr) (s : State) : exec i s = .next (transact params i s) := by
  cases i <;> rfl

/-- `step` is `advance` at `params`. -/
theorem step_eq (s : State) : step s = match nextDemand s with
    | .idle => .next s
    | .reset t => .next (hardReset params t)
    | .run r t => .next (transact params (decode r) t) := by
  unfold step
  cases nextDemand s <;> simp [exec_eq_transact]

/-- A command on CMD runs as its row does. -/
theorem runCommand_eq_transact (P : Params) (c : Command) (s : State) :
    runCommand P c s = transact P c.toInstr s := by
  cases c <;> rfl

end Sys2Proof.Machine
end

