-- ==== Sys2Proof/Laws/Pool.lean ====
section
/-! SUPPORT. What the pool's operations do: the first-free scan, the mixer's loop, and everything a
transaction can do to the block, said once. -/

namespace Sys2Proof.Machine

/-- The scan finds the lowest index with `active = 0` (41_pool.md R191). -/
theorem firstFree_eq_some {voices : List Voice} {k : Nat} {v : Voice}
    (hk : voices[k]? = some v) (free : v.active = false)
    (below : ∀ (j : Nat) (w : Voice), j < k → voices[j]? = some w → w.active = true) :
    firstFree voices = some k := by
  obtain ⟨hlt, rfl⟩ := List.getElem?_eq_some_iff.mp hk
  refine List.findIdx?_eq_some_iff_getElem.mpr ⟨hlt, by simpa using free, fun j hj => ?_⟩
  have := below j voices[j] hj (List.getElem?_eq_getElem _)
  simpa using this

/-- With every slot active it finds nothing (41_pool.md R173). -/
theorem firstFree_eq_none {voices : List Voice} (full : ∀ v ∈ voices, v.active = true) :
    firstFree voices = none := by
  simpa [firstFree] using full

/-- What it finds is a slot, and free. -/
theorem firstFree_spec {voices : List Voice} {k : Nat} (h : firstFree voices = some k) :
    ∃ v, voices[k]? = some v ∧ v.active = false := by
  obtain ⟨hlt, hfree, -⟩ := List.findIdx?_eq_some_iff_getElem.mp h
  exact ⟨voices[k], List.getElem?_eq_getElem _, by simpa using hfree⟩

/-- The mixer's loop: every voice ticked, the samples summed from the left. -/
theorem mixLoop_eq (P : Params) (voices : List Voice) (acc : F32) :
    mixLoop P acc voices =
      (voices.map (voiceTick P),
        (voices.map fun v => (voiceProcess P v).2).foldl P.f32.add acc) := by
  induction voices generalizing acc with
  | nil => rfl
  | cons v vs ih => simp [mixLoop, ih]

@[simp] theorem poolTick_voices (P : Params) (b : Block) :
    (poolTick P b).voices = b.voices.map (voiceTick P) := by
  simp [poolTick, mixLoop_eq]

@[simp] theorem poolTick_mixOut (P : Params) (b : Block) :
    (poolTick P b).mixOut =
      (b.voices.map fun v => (voiceProcess P v).2).foldl P.f32.add posZero := by
  simp [poolTick, mixLoop_eq]

@[simp] theorem poolTick_cmderr (P : Params) (b : Block) : (poolTick P b).cmderr = b.cmderr := rfl
@[simp] theorem poolTick_args (P : Params) (b : Block) : (poolTick P b).args = b.args := rfl

/-- An inactive voice: silence, no state change (40_voice.md R140 (a)). -/
theorem voiceProcess_inactive {P : Params} {v : Voice} (h : v.active = false) :
    voiceProcess P v = (v, posZero) := by
  simp [voiceProcess, h]

/-- Everything a transaction can do to the block: which instruction, and what becomes of it. -/
inductive BlockChange (P : Params) (i : Instr) (b : Block) : Block → Prop
  /-- Nothing. -/
  | same : BlockChange P i b b
  /-- An illegal word: CMDERR (60_exceptions.md R212). -/
  | cmderrSet : BlockChange P i b { b with cmderr := true }
  /-- The STATUS write (10_state.md R42). -/
  | cmderrCleared (d : Word) : i = .wr 0x008#12 4 d → d.getLsbD 0 = true →
      BlockChange P i b { b with cmderr := false }
  /-- An argument write (10_state.md R46). -/
  | argument (addr : Addr) (d : Word) (r : ArgReg) : i = .wr addr 4 d →
      addr.toNat ∈ [0x020, 0x024, 0x028, 0x02C, 0x030, 0x034] →
      BlockChange P i b { b with args := argWrite b.args d r }
  /-- INIT, as itself or as its word on CMD (41_pool.md R170). -/
  | initialized : i = .init ∨ i = .wr 0x004#12 4 0x00000001#32 → BlockChange P i b (poolInit P b)
  /-- Start of one slot of the pool (40_voice.md R131). -/
  | start (k : Nat) : k < b.nVoices → BlockChange P i b (modifyVoice b k (voiceStart P b.args))
  /-- Stop of one slot (40_voice.md R132). -/
  | stop (k : Nat) : BlockChange P i b (modifyVoice b k voiceStop)
  /-- NoteOff (41_pool.md R175). -/
  | noteOff : BlockChange P i b (poolNoteOff P b)
  /-- FreeAllVoices (41_pool.md R178). -/
  | allOff : BlockChange P i b (poolAllOff b)
  /-- The pool's ProcessSample (41_pool.md R180). -/
  | tick : i = .tick → BlockChange P i b (poolTick P b)

theorem blockChange_noteOn (P : Params) (i : Instr) (b : Block) :
    BlockChange P i b (poolNoteOn P b) := by
  unfold poolNoteOn
  split
  · rename_i k hk
    obtain ⟨v, hv, -⟩ := firstFree_spec hk
    exact .start k (List.getElem?_eq_some_iff.mp hv).1
  · exact .same

end Sys2Proof.Machine
end

