-- ==== Sys2Proof/Laws/Bus.lean ====
section
/-! SUPPORT. The address decoder by offsets: where each register lies, what it permits, and the one
inversion lemma of a transaction. -/

namespace Sys2Proof.Machine

/-- The word index of a global register (10_state.md R55). -/
def globalIndex : GlobalReg → Nat
  | .id => 0
  | .cmd => 1
  | .status => 2
  | .active => 3
  | .gate => 4
  | .mixOut => 5
  | .arg .note => 8
  | .arg .vel => 9
  | .arg .attack => 10
  | .arg .decay => 11
  | .arg .sustain => 12
  | .arg .release => 13

/-- The register number of a window register (10_state.md R55). -/
def voiceIndex : VoiceReg → Nat
  | .state => 0
  | .note => 1
  | .vel => 2
  | .attack => 3
  | .decay => 4
  | .sustain => 5
  | .release => 6
  | .out => 7

theorem globalMap_eq_some {k : Nat} {r : GlobalReg} : globalMap k = some r ↔ k = globalIndex r := by
  constructor
  · intro h
    unfold globalMap at h
    split at h <;> cases h <;> rfl
  · rintro rfl
    rcases r with _ | _ | _ | _ | _ | _ | r
    case arg => cases r <;> rfl
    all_goals rfl

theorem voiceMap_eq_some {k : Nat} {r : VoiceReg} : voiceMap k = some r ↔ k = voiceIndex r := by
  constructor
  · intro h
    unfold voiceMap at h
    split at h <;> cases h <;> rfl
  · rintro rfl
    cases r <;> rfl

theorem globalIndex_lt (r : GlobalReg) : globalIndex r < 14 := by
  rcases r with _ | _ | _ | _ | _ | _ | r
  case arg => cases r <;> decide
  all_goals decide

theorem voiceIndex_lt (r : VoiceReg) : voiceIndex r < 8 := by cases r <;> decide

/-- The fields of an offset as numbers (20_memory.md R71, R72). -/
theorem addr_fields (addr : Addr) :
    (addr.extractLsb' 0 2).toNat = addr.toNat % 4 ∧
    addrGlobalIndex addr = addr.toNat / 4 % 512 ∧
    addrSlot addr = addr.toNat / 64 % 32 ∧
    addrVoiceReg addr = addr.toNat / 4 % 16 ∧
    (addr.getLsbD 11 = false ↔ addr.toNat < 0x800) := by
  have h : addr.toNat < 4096 := addr.isLt
  refine ⟨?_, ?_, ?_, ?_, ?_⟩
  · simp
  · simp [addrGlobalIndex, Nat.shiftRight_eq_div_pow]
  · simp [addrSlot, Nat.shiftRight_eq_div_pow]
  · simp [addrVoiceReg, Nat.shiftRight_eq_div_pow]
  · rw [BitVec.getLsbD, Nat.testBit_eq_decide_div_mod_eq]
    simp only [decide_eq_false_iff_not]
    omega

/-- What an offset addresses, as a relation between offset and target. -/
theorem locate_eq_ok {N : Nat} {addr : Addr} {n : Nat} {t : Target} :
    locate N addr n = .ok t ↔
      n = 4 ∧
        ((∃ r, t = .global r ∧ addr.toNat = 4 * globalIndex r) ∨
          ∃ slot r, t = .voice slot r ∧ slot < N ∧ slot < 32 ∧
            addr.toNat = 0x800 + 0x40 * slot + 4 * voiceIndex r) := by
  obtain ⟨f0, fg, fs, fv, f11⟩ := addr_fields addr
  have hlt : addr.toNat < 4096 := addr.isLt
  have aligned : addr.extractLsb' 0 2 = 0 ↔ addr.toNat % 4 = 0 := by
    rw [← f0]
    constructor
    · intro h; rw [h]; rfl
    · intro h; exact BitVec.eq_of_toNat_eq h
  constructor
  · intro h
    unfold locate at h
    split at h
    · cases h
    split at h
    · cases h
    rename_i hn ha
    rw [not_not] at hn ha
    rw [aligned] at ha
    refine ⟨hn, ?_⟩
    split at h
    · rename_i hg
      rw [f11] at hg
      split at h
      · rename_i r hr
        cases h
        rw [globalMap_eq_some] at hr
        exact .inl ⟨r, rfl, by omega⟩
      · cases h
    · rename_i hg
      rw [f11] at hg
      split at h
      · cases h
      split at h
      · rename_i hs r hr
        cases h
        rw [voiceMap_eq_some] at hr
        have := voiceIndex_lt r
        exact .inr ⟨addrSlot addr, r, rfl, by omega, by omega, by omega⟩
      · cases h
  · rintro ⟨rfl, ⟨r, rfl, ha⟩ | ⟨slot, r, rfl, hN, h32, ha⟩⟩
    · have := globalIndex_lt r
      have hg : globalMap (addrGlobalIndex addr) = some r := globalMap_eq_some.mpr (by omega)
      have h11 : addr.getLsbD 11 = false := f11.mpr (by omega)
      have h0 : addr.extractLsb' 0 2 = 0 := aligned.mpr (by omega)
      rw [locate, if_neg (by simp), if_neg (by simpa using h0), if_pos h11, hg]
    · have := voiceIndex_lt r
      have hv : voiceMap (addrVoiceReg addr) = some r := voiceMap_eq_some.mpr (by omega)
      have hs : addrSlot addr = slot := by omega
      have h11 : ¬ addr.getLsbD 11 = false := fun h => by have := f11.mp h; omega
      have h0 : addr.extractLsb' 0 2 = 0 := aligned.mpr (by omega)
      have hle : ¬ N ≤ slot := by omega
      rw [locate, if_neg (by simp), if_neg (by simpa using h0), if_neg h11, hs, if_neg hle, hv]

/-- A read is answered OKAY just where R76 permits it. -/
theorem decodeRead_isOk {N : Nat} {addr : Addr} {n : Nat} :
    (∃ t, decodeRead N addr n = .ok t) ↔ readPermitted N addr n := by
  constructor
  · rintro ⟨t, h⟩
    unfold decodeRead at h
    split at h
    · rename_i g hg
      obtain ⟨rfl, ⟨r, rfl, ha⟩ | ⟨slot, r, rfl, hN, h32, ha⟩⟩ := locate_eq_ok.mp hg
      · refine ⟨rfl, .inl ?_⟩
        rw [ha]
        rcases r with _ | _ | _ | _ | _ | _ | r
        case cmd => cases h
        case arg => cases r <;> decide
        all_goals decide
      · exact ⟨rfl, .inr ⟨slot, voiceIndex r, hN, h32, voiceIndex_lt r, ha⟩⟩
    · cases h
  · rintro ⟨rfl, ha | ⟨slot, k, hN, h32, hk, ha⟩⟩
    · have located : ∀ (r : GlobalReg), addr.toNat = 4 * globalIndex r →
          decodeRead N addr 4 = readable (.global r) := fun r hr => by
        rw [decodeRead, locate_eq_ok.mpr ⟨rfl, .inl ⟨r, rfl, hr⟩⟩]
      simp only [List.mem_cons, List.not_mem_nil, or_false] at ha
      rcases ha with h | h | h | h | h | h | h | h | h | h | h
      · exact ⟨_, located .id h⟩
      · exact ⟨_, located .status h⟩
      · exact ⟨_, located .active h⟩
      · exact ⟨_, located .gate h⟩
      · exact ⟨_, located .mixOut h⟩
      · exact ⟨_, located (.arg .note) h⟩
      · exact ⟨_, located (.arg .vel) h⟩
      · exact ⟨_, located (.arg .attack) h⟩
      · exact ⟨_, located (.arg .decay) h⟩
      · exact ⟨_, located (.arg .sustain) h⟩
      · exact ⟨_, located (.arg .release) h⟩
    · have hr : ∃ r, k = voiceIndex r := by
        have ks : k = 0 ∨ k = 1 ∨ k = 2 ∨ k = 3 ∨ k = 4 ∨ k = 5 ∨ k = 6 ∨ k = 7 := by omega
        rcases ks with rfl | rfl | rfl | rfl | rfl | rfl | rfl | rfl
        exacts [⟨.state, rfl⟩, ⟨.note, rfl⟩, ⟨.vel, rfl⟩, ⟨.attack, rfl⟩, ⟨.decay, rfl⟩,
          ⟨.sustain, rfl⟩, ⟨.release, rfl⟩, ⟨.out, rfl⟩]
      obtain ⟨r, rfl⟩ := hr
      refine ⟨.voice slot r, ?_⟩
      rw [decodeRead, locate_eq_ok.mpr ⟨rfl, .inr ⟨slot, r, rfl, hN, h32, ha⟩⟩]
      rfl

/-- What a write addresses, by offset (20_memory.md R76). -/
theorem decodeWrite_eq_ok {N : Nat} {addr : Addr} {n : Nat} {t : WriteTarget} :
    decodeWrite N addr n = .ok t ↔
      n = 4 ∧
        ((t = .cmd ∧ addr = 0x004#12) ∨ (t = .status ∧ addr = 0x008#12) ∨
          ∃ r, t = .arg r ∧ addr.toNat = 4 * globalIndex (.arg r)) := by
  constructor
  · intro h
    unfold decodeWrite at h
    split at h
    · rename_i g hg
      obtain ⟨rfl, ⟨r, rfl, ha⟩ | ⟨slot, r, rfl, hN, h32, ha⟩⟩ := locate_eq_ok.mp hg
      · refine ⟨rfl, ?_⟩
        cases r <;> cases h
        · exact .inl ⟨rfl, BitVec.eq_of_toNat_eq ha⟩
        · exact .inr (.inl ⟨rfl, BitVec.eq_of_toNat_eq ha⟩)
        · exact .inr (.inr ⟨_, rfl, ha⟩)
      · cases h
    · cases h
  · rintro ⟨rfl, ⟨rfl, rfl⟩ | ⟨rfl, rfl⟩ | ⟨r, rfl, ha⟩⟩
    · rw [decodeWrite, locate_eq_ok.mpr ⟨rfl, .inl ⟨.cmd, rfl, rfl⟩⟩]; rfl
    · rw [decodeWrite, locate_eq_ok.mpr ⟨rfl, .inl ⟨.status, rfl, rfl⟩⟩]; rfl
    · rw [decodeWrite, locate_eq_ok.mpr ⟨rfl, .inl ⟨.arg r, rfl, ha⟩⟩]; rfl

/-- The offset of an argument register is on R55's list. -/
theorem argOffset_mem {addr : Addr} {r : ArgReg} (h : addr.toNat = 4 * globalIndex (.arg r)) :
    addr.toNat ∈ [0x020, 0x024, 0x028, 0x02C, 0x030, 0x034] := by
  rw [h]; cases r <;> decide

/-- A write is answered OKAY just where R76 permits it. -/
theorem decodeWrite_isOk {N : Nat} {addr : Addr} {n : Nat} :
    (∃ t, decodeWrite N addr n = .ok t) ↔ writePermitted addr n := by
  constructor
  · rintro ⟨t, h⟩
    obtain ⟨rfl, ⟨-, rfl⟩ | ⟨-, rfl⟩ | ⟨r, -, ha⟩⟩ := decodeWrite_eq_ok.mp h
    · exact ⟨rfl, by decide⟩
    · exact ⟨rfl, by decide⟩
    · refine ⟨rfl, ?_⟩
      rw [ha]; cases r <;> decide
  · rintro ⟨rfl, ha⟩
    simp only [List.mem_cons, List.not_mem_nil, or_false] at ha
    rcases ha with h | h | h | h | h | h | h | h
    · exact ⟨.cmd, decodeWrite_eq_ok.mpr ⟨rfl, .inl ⟨rfl, BitVec.eq_of_toNat_eq h⟩⟩⟩
    · exact ⟨.status, decodeWrite_eq_ok.mpr ⟨rfl, .inr (.inl ⟨rfl, BitVec.eq_of_toNat_eq h⟩)⟩⟩
    · exact ⟨_, decodeWrite_eq_ok.mpr ⟨rfl, .inr (.inr ⟨.note, rfl, h⟩)⟩⟩
    · exact ⟨_, decodeWrite_eq_ok.mpr ⟨rfl, .inr (.inr ⟨.vel, rfl, h⟩)⟩⟩
    · exact ⟨_, decodeWrite_eq_ok.mpr ⟨rfl, .inr (.inr ⟨.attack, rfl, h⟩)⟩⟩
    · exact ⟨_, decodeWrite_eq_ok.mpr ⟨rfl, .inr (.inr ⟨.decay, rfl, h⟩)⟩⟩
    · exact ⟨_, decodeWrite_eq_ok.mpr ⟨rfl, .inr (.inr ⟨.sustain, rfl, h⟩)⟩⟩
    · exact ⟨_, decodeWrite_eq_ok.mpr ⟨rfl, .inr (.inr ⟨.release, rfl, h⟩)⟩⟩

/-- A read leaves the block. -/
theorem runRd_block (addr : Addr) (n : Nat) (s : State) : (runRd addr n s).block = s.block := by
  unfold runRd
  split <;> rfl

/-- The inversion lemma: everything a transaction can do to the block. -/
theorem transact_blockChange (P : Params) (i : Instr) (s : State) :
    BlockChange P i s.block (transact P i s).block := by
  have slotStart : ∀ (i : Instr) (slot : SlotField),
      BlockChange P i s.block (runVstart P slot s).block := fun i slot => by
    unfold runVstart
    split
    · exact .cmderrSet
    · exact .start _ (by omega)
  have slotStop : ∀ (i : Instr) (slot : SlotField),
      BlockChange P i s.block (runVstop slot s).block := fun i slot => by
    unfold runVstop
    split
    · exact .cmderrSet
    · exact .stop _
  have routed : ∀ i : Instr, BlockChange P i s.block (routeNoteOn P s.block) := fun i => by
    unfold routeNoteOn
    split
    · exact .noteOff
    · exact blockChange_noteOn P i s.block
  cases i with
  | nop => exact .same
  | init => exact .initialized (.inl rfl)
  | noteOn => exact blockChange_noteOn P _ _
  | noteOff => exact .noteOff
  | allOff => exact .allOff
  | eventNoteOn => exact routed _
  | eventNoteOff => exact .noteOff
  | eventOther => exact .same
  | vstart slot => exact slotStart _ slot
  | vstop slot => exact slotStop _ slot
  | tick => exact .tick rfl
  | rd addr n =>
    rw [show (transact P (.rd addr n) s).block = s.block from runRd_block addr n s]
    exact .same
  | wr addr n d =>
    show BlockChange P _ _ (runWr P addr n d s).block
    unfold runWr
    split
    · rename_i h
      obtain ⟨rfl, ⟨-, rfl⟩ | ⟨h, -⟩ | ⟨r, h, -⟩⟩ := decodeWrite_eq_ok.mp h
      · unfold executeCommand
        split
        · rename_i c hc
          have word := encodeCommand_of_decodeCommand hc
          cases c with
          | init => exact .initialized (.inr (by rw [← word]; rfl))
          | nop => exact .same
          | noteOn => exact blockChange_noteOn P _ _
          | noteOff => exact .noteOff
          | allOff => exact .allOff
          | eventNoteOn => exact routed _
          | eventNoteOff => exact .noteOff
          | eventOther => exact .same
          | vstart slot => exact slotStart _ slot
          | vstop slot => exact slotStop _ slot
        · exact .cmderrSet
      · cases h
      · cases h
    · rename_i h
      obtain ⟨rfl, ⟨h, -⟩ | ⟨-, rfl⟩ | ⟨r, h, -⟩⟩ := decodeWrite_eq_ok.mp h
      · cases h
      · rw [answer_block, statusWrite]
        split
        · rename_i hd
          exact .cmderrCleared d rfl hd
        · exact .same
      · cases h
    · rename_i r h
      obtain ⟨rfl, ⟨h, -⟩ | ⟨h, -⟩ | ⟨r', h, ha⟩⟩ := decodeWrite_eq_ok.mp h
      · cases h
      · cases h
      · cases h
        exact .argument addr d r rfl (argOffset_mem ha)
    · exact .same

/-- A transaction answers once and takes no other input. -/
theorem transact_answer (P : Params) (i : Instr) (s : State) :
    ∃ e, (transact P i s).log = e :: s.log ∧ (transact P i s).inbox = s.inbox := by
  have command : ∀ c : Command, ∃ e,
      (runCommand P c s).log = e :: s.log ∧ (runCommand P c s).inbox = s.inbox := by
    intro c
    cases c with
    | vstart slot => simp only [runCommand, runVstart]; split <;> exact ⟨_, rfl, rfl⟩
    | vstop slot => simp only [runCommand, runVstop]; split <;> exact ⟨_, rfl, rfl⟩
    | _ => exact ⟨_, rfl, rfl⟩
  cases i with
  | vstart slot => exact command (.vstart slot)
  | vstop slot => exact command (.vstop slot)
  | rd addr n => simp only [transact, runRd]; split <;> exact ⟨_, rfl, rfl⟩
  | wr addr n d =>
    simp only [transact, runWr]
    split
    · simp only [executeCommand]
      split
      · exact command _
      · exact ⟨_, rfl, rfl⟩
    all_goals exact ⟨_, rfl, rfl⟩
  | _ => exact ⟨_, rfl, rfl⟩

/-- Every transaction keeps the number of slots (10_state.md R39). -/
theorem transact_nVoices (P : Params) (i : Instr) (s : State) :
    (transact P i s).block.nVoices = s.block.nVoices := by
  have h := transact_blockChange P i s
  generalize (transact P i s).block = c at h
  cases h <;> simp [Block.nVoices]

/-- What a transaction can do to one voice. -/
inductive VoiceChange (P : Params) (i : Instr) (x : Args) (v : Voice) : Voice → Prop
  | same : VoiceChange P i x v v
  | start : VoiceChange P i x v (voiceStart P x v)
  | stop : VoiceChange P i x v (voiceStop v)
  | initialized : i = .init ∨ i = .wr 0x004#12 4 0x00000001#32 → VoiceChange P i x v (voiceInit P)
  | tick : i = .tick → VoiceChange P i x v (voiceTick P v)

/-- The inversion lemma by slot: everything a transaction can do to slot k. -/
theorem transact_voiceChange {P : Params} {i : Instr} {s : State} {k : Nat} {v w : Voice}
    (before : s.block.voices[k]? = some v) (after : (transact P i s).block.voices[k]? = some w) :
    VoiceChange P i s.block.args v w := by
  have change := transact_blockChange P i s
  generalize (transact P i s).block = b at *
  have modified : ∀ (j : Nat) (f : Voice → Voice),
      (s.block.voices.modify j f)[k]? = some w → w = v ∨ w = f v := by
    intro j f h
    rw [List.getElem?_modify, before] at h
    split at h <;> cases h
    · exact .inr rfl
    · exact .inl rfl
  cases change with
  | initialized h =>
    simp only [poolInit_voices, List.getElem?_map, before, Option.map_some,
      Option.some.injEq] at after
    exact after ▸ .initialized h
  | start j _ => rcases modified j _ after with rfl | rfl <;> constructor
  | stop j => rcases modified j _ after with rfl | rfl <;> constructor
  | noteOff =>
    simp only [poolNoteOff_voices, List.getElem?_map, before, Option.map_some,
      Option.some.injEq, noteOffVoice] at after
    split at after <;> subst after <;> constructor
  | allOff =>
    simp only [poolAllOff_voices, List.getElem?_map, before, Option.map_some,
      Option.some.injEq] at after
    exact after ▸ .stop
  | tick h =>
    simp only [poolTick_voices, List.getElem?_map, before, Option.map_some,
      Option.some.injEq] at after
    exact after ▸ .tick h
  | _ =>
    obtain rfl := Option.some.inj (before.symm.trans after)
    exact .same

/-- What a step can do: nothing, the reset input, or one transaction, presented at the head of the
inbox or the TICK of a pair presented together. -/
theorem advance_cases (P : Params) (s : State) :
    (s.inbox = [] ∧ advance P s = s) ∨
    (∃ rest, s.inbox = .reset :: rest ∧ advance P s = hardReset P { s with inbox := rest }) ∨
    (∃ r rest, s.inbox = .request r :: rest ∧
      advance P s = transact P (decode r) { s with inbox := rest }) ∨
    ∃ a rest, s.inbox = .together a :: rest ∧
      advance P s = transact P .tick { s with inbox := .request (.control a) :: rest } := by
  unfold advance nextDemand
  match s.inbox with
  | [] => exact .inl ⟨rfl, rfl⟩
  | .reset :: rest => exact .inr (.inl ⟨rest, rfl, rfl⟩)
  | .request r :: rest => exact .inr (.inr (.inl ⟨r, rest, rfl, rfl⟩))
  | .together a :: rest => exact .inr (.inr (.inr ⟨a, rest, rfl, rfl⟩))

/-- An invariant of the block that reset establishes and every transaction keeps is kept by every
step. -/
theorem advance_keeps {P : Params} {I : Block → Prop}
    (reset : ∀ b, I b → I (blockReset P b.nVoices))
    (keep : ∀ i s, I s.block → I (transact P i s).block) (s : State) (h : I s.block) :
    I (advance P s).block := by
  rcases advance_cases P s with ⟨-, e⟩ | ⟨rest, -, e⟩ | ⟨r, rest, -, e⟩ | ⟨a, rest, -, e⟩ <;> rw [e]
  · exact h
  · exact reset s.block h
  · exact keep (decode r) { s with inbox := rest } h
  · exact keep .tick { s with inbox := .request (.control a) :: rest } h

end Sys2Proof.Machine
end

