-- ==== Sys2Proof/Laws/F32.lean ====
section
/-! SUPPORT. Facts of the binary32 arithmetic: patterns as numbers, NaNs, equality, sums that are
never -0.0, and values that round to themselves. -/

namespace Sys2Proof.Machine

/-- The fields of a pattern as numbers (00_scope.md R18). -/
theorem f32_fields (a : F32) :
    f32Exponent a = a.toNat / 2 ^ 23 % 256 ∧ f32Fraction a = a.toNat % 2 ^ 23 ∧
    (f32Sign a = true ↔ 2 ^ 31 ≤ a.toNat) := by
  refine ⟨?_, ?_, ?_⟩
  · simp [f32Exponent, Nat.shiftRight_eq_div_pow]
  · simp [f32Fraction]
  · simp [f32Sign, BitVec.msb_eq_decide]

/-- A pattern from its sign and the 31 bits below. -/
theorem f32Pack_toNat {negative : Bool} {bits : Nat} (h : bits < 2 ^ 31) :
    (f32Pack negative bits).toNat = (if negative then 2 ^ 31 else 0) + bits := by
  rw [f32Pack, BitVec.toNat_ofNat]
  apply Nat.mod_eq_of_lt
  split <;> omega

/-- A pattern is its sign and the 31 bits below. -/
theorem f32Pack_self (a : F32) : f32Pack (f32Sign a) (a.toNat % 2 ^ 31) = a := by
  have hs := (f32_fields a).2.2
  have hlt : a.toNat < 2 ^ 32 := a.isLt
  apply BitVec.eq_of_toNat_eq
  rw [f32Pack_toNat (by omega)]
  cases h : f32Sign a
  · have : ¬ 2 ^ 31 ≤ a.toNat := fun h' => by simp [hs.mpr h'] at h
    simp; omega
  · have := hs.mp h
    simp; omega

theorem f32IsNaN_iff (a : F32) : f32IsNaN a = true ↔ 0x7F800000 < a.toNat % 2 ^ 31 := by
  obtain ⟨he, hf, -⟩ := f32_fields a
  simp only [f32IsNaN, Bool.and_eq_true, beq_iff_eq, bne_iff_ne, he, hf]
  omega

theorem f32IsInf_iff (a : F32) : f32IsInf a = true ↔ a.toNat % 2 ^ 31 = 0x7F800000 := by
  obtain ⟨he, hf, -⟩ := f32_fields a
  simp only [f32IsInf, Bool.and_eq_true, beq_iff_eq, he, hf]
  omega

theorem f32IsZero_iff (a : F32) : f32IsZero a = true ↔ a.toNat % 2 ^ 31 = 0 := by
  obtain ⟨he, hf, -⟩ := f32_fields a
  simp only [f32IsZero, Bool.and_eq_true, beq_iff_eq, he, hf]
  omega

/-- NAN_OUT is a NaN, whichever it is (00_scope.md R14). -/
theorem nanPattern_toNat (p : NanPattern) :
    p.toF32.toNat % 2 ^ 31 = 0x7F800000 + (p.payload.val + 1) := by
  have := p.payload.isLt
  rw [NanPattern.toF32, BitVec.toNat_ofNat]
  split <;> omega

theorem nanPattern_isNaN (p : NanPattern) : f32IsNaN p.toF32 = true := by
  rw [f32IsNaN_iff, nanPattern_toNat]; omega

/-- The rounded result is a sign over at most the infinity's bits. -/
theorem f32Round_toNat (negative : Bool) (num den : Nat) :
    ∃ bits ≤ 0x7F800000, f32Round negative num den = f32Pack negative bits :=
  ⟨_, Nat.min_le_right _ _, rfl⟩

/-- A multiple of the divisor rounds to itself. -/
theorem roundTiesToEven_mul {q den : Nat} (h : 0 < den) : roundTiesToEven (q * den) den = q := by
  simp [roundTiesToEven, Nat.mul_div_cancel _ h, h]

/-- A nonzero whole number of the smallest subnormals does not round to zero. -/
theorem f32Round_one_ne_zero {negative : Bool} {m : Nat} (h : m ≠ 0) :
    ∃ bits, 0 < bits ∧ bits ≤ 0x7F800000 ∧ f32Round negative m 1 = f32Pack negative bits := by
  refine ⟨_, ?_, Nat.min_le_right _ _, rfl⟩
  rw [Nat.div_one, Nat.one_mul]
  generalize hs : Nat.log2 m - 23 = shift
  rcases Nat.eq_zero_or_pos shift with rfl | hpos
  · have := roundTiesToEven_mul (q := m) (den := 1) (by omega)
    simp only [Nat.mul_one] at this
    simp only [Nat.pow_zero, this]
    omega
  · have : 0 < shift * 2 ^ 23 := by omega
    omega

/-- A finite value, a whole number of times any divisor, rounds to its own pattern. -/
theorem f32Round_magnitude (negative : Bool) {c : F32} {den : Nat}
    (finite : c.toNat % 2 ^ 31 < 0x7F800000) (hden : 0 < den) :
    f32Round negative (f32Magnitude c * den) den = f32Pack negative (c.toNat % 2 ^ 31) := by
  obtain ⟨he, hf, -⟩ := f32_fields c
  have hexp : f32Exponent c < 255 := by omega
  have hfrac : f32Fraction c < 2 ^ 23 := by omega
  have hbits : c.toNat % 2 ^ 31 = f32Exponent c * 2 ^ 23 + f32Fraction c := by omega
  rw [hbits]
  clear he hf hbits finite
  unfold f32Round f32Magnitude
  generalize f32Exponent c = e at *
  generalize f32Fraction c = f at *
  rcases Nat.eq_zero_or_pos e with rfl | hpos
  · have hlog : Nat.log2 f - 23 = 0 := by
      rcases Nat.eq_zero_or_pos f with rfl | hf
      · rfl
      · have := (Nat.log2_lt (by omega : f ≠ 0)).mpr hfrac
        omega
    simp only [if_true, Nat.mul_div_cancel _ hden, hlog, Nat.pow_zero, Nat.mul_one,
      roundTiesToEven_mul hden]
    congr 1
    omega
  · have hne : ¬ e = 0 := by omega
    have hm : (2 ^ 23 + f) * 2 ^ (e - 1) ≠ 0 := by positivity
    have hlog : Nat.log2 ((2 ^ 23 + f) * 2 ^ (e - 1)) = 23 + (e - 1) := by
      refine (Nat.log2_eq_iff hm).mpr ⟨?_, ?_⟩
      · rw [Nat.pow_add]; gcongr; omega
      · rw [show 23 + (e - 1) + 1 = 24 + (e - 1) by omega, Nat.pow_add]
        gcongr; omega
    simp only [hne, if_false, Nat.mul_div_cancel _ hden, hlog, Nat.add_sub_cancel_left]
    rw [Nat.mul_assoc, Nat.mul_comm (2 ^ (e - 1)) den,
      roundTiesToEven_mul (Nat.mul_pos hden (by positivity))]
    congr 1
    omega

/-- A sum whose first operand is not -0.0 is not -0.0 (41_pool.md R181). -/
theorem f32Add_ne_negZero (nan : ArithOp → F32 → F32 → NanPattern) {a : F32} (b : F32)
    (ha : a ≠ negZero) : f32Add nan a b ≠ negZero := by
  have notNegZero : ∀ {x : F32}, x.toNat % 2 ^ 31 ≠ 0 → x ≠ negZero := by
    rintro x hx rfl
    exact hx (by decide)
  have isNan : ∀ p : NanPattern, p.toF32 ≠ negZero := fun p =>
    notNegZero (by rw [nanPattern_toNat]; omega)
  unfold f32Add
  split
  · exact isNan _
  · split
    · split
      · exact isNan _
      · exact ha
    · split
      · rename_i hb
        exact notNegZero (by rw [(f32IsInf_iff b).mp hb]; decide)
      · simp only
        split
        · rename_i hsum
          cases hs : f32Sign a && f32Sign b
          · decide
          · exfalso
            simp only [Bool.and_eq_true] at hs
            obtain ⟨sa, sb⟩ := hs
            simp only [f32Value, sa, sb, if_true] at hsum
            have hmag : f32Magnitude a = 0 := by omega
            obtain ⟨he, hf, hsign⟩ := f32_fields a
            have hge := hsign.mp sa
            have hlt : a.toNat < 2 ^ 32 := a.isLt
            have hz : f32Exponent a = 0 ∧ f32Fraction a = 0 := by
              unfold f32Magnitude at hmag
              split at hmag
              · exact ⟨by assumption, hmag⟩
              · have : 0 < (2 ^ 23 + f32Fraction a) * 2 ^ (f32Exponent a - 1) := by positivity
                omega
            exact ha (BitVec.eq_of_toNat_eq (show a.toNat = 2 ^ 31 by omega))
        · rename_i hsum
          obtain ⟨bits, hpos, hle, heq⟩ := f32Round_one_ne_zero
            (negative := decide (f32Value a + f32Value b < 0)) (Int.natAbs_ne_zero.mpr hsum)
          rw [heq]
          refine notNegZero ?_
          rw [f32Pack_toNat (by omega)]
          split <;> omega

/-- A nonzero value that a finite pattern has, as the pattern (41_pool.md R182). -/
theorem f32Round_of_value {c : F32} {x : Int} (finite : c.toNat % 2 ^ 31 < 0x7F800000)
    (hc : f32Value c = x) (hx : x ≠ 0) : f32Round (decide (x < 0)) x.natAbs 1 = c := by
  have hmag : x.natAbs = f32Magnitude c := by
    rw [← hc, f32Value]; split <;> simp
  have hsign : decide (x < 0) = f32Sign c := by
    cases hs : f32Sign c <;> simp only [f32Value, hs] at hc <;> simp at hc ⊢ <;> omega
  rw [hmag, hsign]
  have := f32Round_magnitude (f32Sign c) (den := 1) finite (by omega)
  rw [Nat.mul_one] at this
  rw [this, f32Pack_self]

/-- A representable sum of finite values is exact (41_pool.md R182). -/
theorem f32Add_exact (nan : ArithOp → F32 → F32 → NanPattern) {a b c : F32}
    (ha : a.toNat % 2 ^ 31 < 0x7F800000) (hb : b.toNat % 2 ^ 31 < 0x7F800000)
    (hc : c.toNat % 2 ^ 31 < 0x7F800000) (sum : f32Value a + f32Value b = f32Value c) :
    (f32Add nan a b).toNat % 2 ^ 31 < 0x7F800000 ∧
      f32Value (f32Add nan a b) = f32Value c := by
  have na : f32IsNaN a = false := by
    rw [Bool.eq_false_iff, ne_eq, f32IsNaN_iff]; omega
  have nb : f32IsNaN b = false := by
    rw [Bool.eq_false_iff, ne_eq, f32IsNaN_iff]; omega
  have ia : f32IsInf a = false := by
    rw [Bool.eq_false_iff, ne_eq, f32IsInf_iff]; omega
  have ib : f32IsInf b = false := by
    rw [Bool.eq_false_iff, ne_eq, f32IsInf_iff]; omega
  simp only [f32Add, na, nb, ia, ib, sum, Bool.or_self, Bool.false_eq_true, if_false]
  split
  · rename_i h0
    rw [h0]
    cases f32Sign a && f32Sign b <;> decide
  · rename_i hne
    rw [f32Round_of_value hc rfl hne]
    exact ⟨hc, rfl⟩

end Sys2Proof.Machine
end

