-- ==== Sys2Proof/Laws/Flags.lean ====
section
/-! SUPPORT. The registers that are views: ACTIVE and GATE bit by bit, STATUS, ID, V_STATE. -/

namespace Sys2Proof.Machine

/-- Bit i of a view is the bit of slot i; bits of absent slots are 0 (10_state.md R43, R44). -/
theorem slotBits_getLsbD (f : Voice → Bool) (voices : List Voice) (i : Nat) (hi : i < 32) :
    (slotBits f voices).getLsbD i = (voices[i]?.map f).getD false := by
  induction voices generalizing i with
  | nil => simp [slotBits]
  | cons v vs ih =>
    cases i with
    | zero => cases h : f v <;> simp [slotBits, h]
    | succ i =>
      have tail := ih i (by omega)
      rw [slotBits, BitVec.getLsbD_or, BitVec.getLsbD_shiftLeft]
      cases h : f v <;> simp [tail, hi]

/-- V_STATE by its two bits (10_state.md R48, R49). -/
theorem voiceStateWord_eq (active gate : Bool) :
    voiceStateWord active gate = BitVec.ofNat 32
      ((if active = true then 1 else 0) + (if gate = true then 2 else 0) +
        4 * (if active = true then if gate = true then 1 else 2 else 0)) := by
  cases active <;> cases gate <;> decide

/-- STATE never reads 0b11 (10_state.md R49). -/
theorem stateField_ne_three (active gate : Bool) : stateField active gate ≠ 0b11#2 := by
  cases active <;> cases gate <;> decide

/-- ID reads the number of slots, up to 63 (10_state.md R40). -/
theorem idWord_eq {n : Nat} (h : n < 64) : idWord n = BitVec.ofNat 32 n := by
  apply BitVec.eq_of_toNat_eq
  simp [idWord]
  omega

end Sys2Proof.Machine
end

