-- ==== Sys2Proof/Laws/PerInstr.lean ====
section
/-! SUPPORT. The family RoundTrip: a well-formed instruction decodes from the transaction that
carries it, one lemma per constructor. -/

namespace Sys2Proof.Laws.RoundTrip

/-- Decoding the transaction of a well-formed instruction gives it back. -/
def Statement (i : Instr) : Prop := i.wellFormed = true → decode (encode i) = i

theorem nop : Statement .nop := fun _ => decode_commandRequest .nop
theorem init : Statement .init := fun _ => decode_commandRequest .init
theorem noteOn : Statement .noteOn := fun _ => decode_commandRequest .noteOn
theorem noteOff : Statement .noteOff := fun _ => decode_commandRequest .noteOff
theorem allOff : Statement .allOff := fun _ => decode_commandRequest .allOff
theorem eventNoteOn : Statement .eventNoteOn := fun _ => decode_commandRequest .eventNoteOn
theorem eventNoteOff : Statement .eventNoteOff := fun _ => decode_commandRequest .eventNoteOff
theorem eventOther : Statement .eventOther := fun _ => decode_commandRequest .eventOther
theorem vstart (slot : SlotField) : Statement (.vstart slot) :=
  fun _ => decode_commandRequest (.vstart slot)
theorem vstop (slot : SlotField) : Statement (.vstop slot) :=
  fun _ => decode_commandRequest (.vstop slot)
theorem tick : Statement .tick := fun _ => rfl
theorem rd (addr : Addr) (n : Nat) : Statement (.rd addr n) := fun _ => rfl

theorem wr (addr : Addr) (n : Nat) (data : Word) : Statement (.wr addr n data) := by
  intro h
  by_cases cmd : addr = cmdOffset ∧ n = 4
  · obtain ⟨rfl, rfl⟩ := cmd
    show decodeAccess (.write cmdOffset 4 data) = .wr cmdOffset 4 data
    rw [decodeAccess_cmd]
    split
    · rename_i c hc
      simp [Instr.wellFormed, isCommandWord_of_decodeCommand hc] at h
    · rfl
  · exact decodeAccess_other cmd

end Sys2Proof.Laws.RoundTrip
end

