-- ==== Sys2Proof/Laws/Run.lean ====
section
/-! SUPPORT. Runs of a machine, one step at a time. -/

namespace Sys2Proof.Machine

/-- A run whose first step answers a next state goes on from it. -/
theorem run_of_step (M : Host.Core) {k : Nat} {s s' : M.State} (h : M.step s = .next s') :
    M.run (k + 1) s = M.run k s' := by
  simp only [Host.Core.run, h]

/-- A run of no steps ends where it starts. -/
theorem run_zero (M : Host.Core) (s : M.State) : M.run 0 s = .next s := by
  simp only [Host.Core.run]

end Sys2Proof.Machine
end

