-- ==== Sys2Proof/Tests/Slice0.lean ====
section
/-! SUPPORT. Tests of the model. Expected values come from the vectors of 95_test_vectors.md (their
ids stand in the docstrings) or from the encoding tables of 30_encoding.md. Each test is one
transaction or one step. The `witness_…` theorems show that the premises of the statement of that
name can be met. -/

namespace Sys2Proof.Tests

open Sys2Proof Sys2Proof.Machine

/-! Encodings: words written out bit by bit from 30_encoding.md R102 and R104. -/

theorem test_decode_nop :
    decodeTableWord 32 0b00000000000000000000000000000000 = some .nop := by decide
theorem test_decode_init :
    decodeTableWord 32 0b00000000000000000000000000000001 = some .init := by decide
theorem test_decode_noteOn :
    decodeTableWord 32 0b00000000000000000000000000000010 = some .noteOn := by decide
theorem test_decode_noteOff :
    decodeTableWord 32 0b00000000000000000000000000000011 = some .noteOff := by decide
theorem test_decode_allOff :
    decodeTableWord 32 0b00000000000000000000000000000100 = some .allOff := by decide
theorem test_decode_eventNoteOn :
    decodeTableWord 32 0b00000000000000000000000000000101 = some .eventNoteOn := by decide
theorem test_decode_eventNoteOff :
    decodeTableWord 32 0b00000000000000010000000000000101 = some .eventNoteOff := by decide
theorem test_decode_eventOther :
    decodeTableWord 32 0b00000000000000100000000000000101 = some .eventOther := by decide
theorem test_decode_vstart :
    decodeTableWord 32 0b00000000000000000001011000000110 = some (.vstart 22) := by decide
theorem test_decode_vstop :
    decodeTableWord 32 0b00000000000000000000110100000111 = some (.vstop 13) := by decide
theorem test_decode_tick : decode .tick = .tick ∧ decodeTableWord 0 0 = some .tick := by decide
theorem test_decode_rd :
    decode (.control (.read 0b100010000100#12 4)) = .rd 0x884#12 4 := by decide
theorem test_decode_wr :
    decode (.control (.write 0b000000100000#12 4 0x42700000#32)) = .wr 0x020#12 4 0x42700000#32 ∧
      decode (.control (.write 0b000000000100#12 1 0x00000002#32)) =
        .wr 0x004#12 1 0x00000002#32 := by decide

/-- Rejected by name, with the cause of 60_exceptions.md R213 (CW7, CW12 to CW17). -/
theorem test_decode_rejects_by_name :
    decodeCommand 0x00000010#32 = .error .reservedBits ∧
    decodeCommand 0x00002006#32 = .error .reservedBits ∧
    decodeCommand 0x00040000#32 = .error .reservedBits ∧
    decodeCommand 0x80000002#32 = .error .reservedBits ∧
    decodeCommand 0x00000008#32 = .error .reservedOpcode ∧
    decodeCommand 0x0000000F#32 = .error .reservedOpcode ∧
    decodeCommand 0x00000102#32 = .error .strayField ∧
    decodeCommand 0x00010006#32 = .error .strayField ∧
    decodeCommand 0x00030005#32 = .error .reservedKind := by decide

/-- The address decoder, cause by cause (AD1, AD2, AD6, AD7, AD8, AD12, AD14, AD15, AD18, AD20). -/
theorem test_address_decoder :
    decodeWrite 8 0x000#12 4 = .error .direction ∧
    decodeRead 8 0x004#12 4 = .error .direction ∧
    decodeRead 8 0x7FC#12 4 = .error .unmapped ∧
    decodeRead 8 0x022#12 4 = .error .misaligned ∧
    decodeRead 8 0x020#12 1 = .error .size ∧
    decodeRead 8 0x820#12 4 = .error .unmapped ∧
    decodeRead 8 0x9C4#12 4 = .ok (.voice 7 .note) ∧
    decodeRead 8 0xA00#12 4 = .error .slotRange ∧
    decodeRead 1 0x844#12 4 = .error .slotRange ∧
    decodeWrite 8 0x00C#12 4 = .error .direction := by decide

/-! Well-formedness: the one ill-formed shape, a command word written as a plain write to CMD, is
refused in each of its forms; the same words at another size or offset are well formed. -/

theorem test_wellFormed_refuses_command_words :
    (Instr.wr 0x004#12 4 0x00000000#32).wellFormed = false ∧
    (Instr.wr 0x004#12 4 0x00000001#32).wellFormed = false ∧
    (Instr.wr 0x004#12 4 0x00000002#32).wellFormed = false ∧
    (Instr.wr 0x004#12 4 0x00000003#32).wellFormed = false ∧
    (Instr.wr 0x004#12 4 0x00000004#32).wellFormed = false ∧
    (Instr.wr 0x004#12 4 0x00000005#32).wellFormed = false ∧
    (Instr.wr 0x004#12 4 0x00010005#32).wellFormed = false ∧
    (Instr.wr 0x004#12 4 0x00020005#32).wellFormed = false ∧
    (Instr.wr 0x004#12 4 0x00001F06#32).wellFormed = false ∧
    (Instr.wr 0x004#12 4 0x00000007#32).wellFormed = false := by decide

theorem test_wellFormed_accepts_other_writes :
    (Instr.wr 0x004#12 4 0x00000008#32).wellFormed = true ∧
    (Instr.wr 0x004#12 1 0x00000002#32).wellFormed = true ∧
    (Instr.wr 0x020#12 4 0x00000002#32).wellFormed = true := by decide

/-! The default F32 (00_scope.md R14): the sums, products and quotients the vectors give. -/

/-- A NAN_OUT for the tests: the quiet NaN 0x7FC00000. -/
def nanF : ArithOp → F32 → F32 → NanPattern := fun _ _ _ => ⟨false, 0x3FFFFF⟩

/-- MX5, MX6, MX7: rounding to even, both ways, and an overflow. -/
theorem test_f32_add_rounds :
    f32Add nanF 0x4B800000#32 0x3F800000#32 = 0x4B800000#32 ∧
    f32Add nanF 0x4B800000#32 0x40000000#32 = 0x4B800001#32 ∧
    f32Add nanF 0x4B000000#32 0x3F000000#32 = 0x4B000000#32 ∧
    f32Add nanF 0x7F000000#32 0x7F000000#32 = 0x7F800000#32 := by decide +kernel

/-- MX3, MX4: zeros and cancellation. -/
theorem test_f32_add_zeros :
    f32Add nanF 0x00000000#32 0x80000000#32 = 0x00000000#32 ∧
    f32Add nanF 0x3F800000#32 0xBF800000#32 = 0x00000000#32 ∧
    f32Add nanF 0x3F000000#32 0x3E800000#32 = 0x3F400000#32 := by decide +kernel

/-- MX8: infinities of opposite signs give a NaN. -/
theorem test_f32_add_infinities :
    f32IsNaN (f32Add nanF 0x7F800000#32 0xFF800000#32) = true := by decide +kernel

/-- EV4, VO11, VO14, VO15 and MX5: the gains of the vectors. -/
theorem test_f32_div_gains :
    f32Div nanF 0x00000001#32 0x42FE0000#32 = 0x00000000#32 ∧
    f32Div nanF 0x427E0000#32 0x42FE0000#32 = 0x3F000000#32 ∧
    f32Div nanF 0x437E0000#32 0x42FE0000#32 = 0x40000000#32 ∧
    f32Div nanF 0xC2FE0000#32 0x42FE0000#32 = 0xBF800000#32 ∧
    f32Div nanF 0x4EFE0000#32 0x42FE0000#32 = 0x4B800000#32 := by decide +kernel

/-- 40_voice.md R144: infinity times zero, and a signed zero product. -/
theorem test_f32_mul_corners :
    f32IsNaN (f32Mul nanF 0x7F800000#32 0x00000000#32) = true ∧
    f32Mul nanF 0xBF800000#32 0x00000000#32 = 0x80000000#32 ∧
    f32Mul nanF 0x7F000000#32 0x3F000000#32 = 0x7E800000#32 := by decide +kernel

/-! The fixture of 95_test_vectors.md: OSC_F, EG_F and the parameters around them. -/

/-- EgState_F, its six fields in order: mode (0 IDLE, 1 ATK0, 2 HELD, 3 REL), lvl, L0, k, s, rn. -/
def egWords (mode lvl l0 k s rn : Word) : EgState := ⟨[mode, lvl, l0, k, s, rn]⟩

def egWord (e : EgState) (i : Nat) : Word := e.words.getD i 0

/-- The release values of the fixture as whole numbers: 0.0, 1.0, 2.0. -/
def asWhole (x : F32) : Word :=
  if x = 0x3F800000#32 then 1 else if x = 0x40000000#32 then 2 else 0

/-- And back. -/
def asReal (k : Word) : F32 :=
  if k = 1 then 0x3F800000#32 else if k = 2 then 0x40000000#32 else 0x00000000#32

/-- EG_F.step. -/
def egStepF (e : EgState) (gate : Bool) : EgState × F32 :=
  let s := egWord e 4
  let rn := egWord e 5
  if gate then
    let lvl := if egWord e 0 = 2 then s else f32Mul nanF s 0x3F000000#32
    (egWords 2 lvl (egWord e 2) (egWord e 3) s rn, lvl)
  else
    let falls := egWord e 0 = 1 ∨ egWord e 0 = 2
    let l0 := if falls then egWord e 1 else egWord e 2
    let k := if falls then rn else egWord e 3
    if egWord e 0 = 0 then (e, 0x00000000#32)
    else if k = 0 then (egWords 0 0 l0 0 s rn, 0x00000000#32)
    else
      let lvl := f32Div nanF (f32Mul nanF l0 (asReal (k - 1))) (asReal rn)
      (egWords (if k = 1 then 0 else 3) lvl l0 (k - 1) s rn, lvl)

/-- EG_F. -/
def egF : EgPrim where
  init := fun _ => egWords 0 0 0 0 0 0
  config := fun e sus _ _ rel =>
    egWords (egWord e 0) (egWord e 1) (egWord e 2) (egWord e 3) sus (asWhole rel)
  restart := fun e => egWords 1 0 (egWord e 2) (egWord e 3) (egWord e 4) (egWord e 5)
  step := egStepF
  running := fun e => egWord e 0 != 0

/-- OSC_F. -/
def oscF : OscPrim where
  init := fun _ => ⟨[0]⟩
  setFreq := fun _ hz => ⟨[hz]⟩
  step := fun o => (o, 0x3F800000#32)

/-- The fixture's parameters, any envelope generator in place of EG_F. -/
def withEg (eg : EgPrim) : Params where
  f32 := f32Ieee nanF
  sampleRate := ⟨0x473B7FFF⟩
  mtof := fun n => n
  osc := oscF
  eg := eg
  defaultAttack := 0x00000000#32
  defaultDecay := 0x00000000#32
  defaultSustain := 0x3F800000#32
  defaultRelease := 0x00000000#32

/-- The fixture: SAMPLE_RATE 48000.0. -/
def paramsF : Params := withEg egF

/-- The operands of the vectors: note 60.0, velocity 127.0, sustain 1.0, release 2.0. -/
def argsF : Args :=
  ⟨0x42700000#32, 0x42FE0000#32, 0x00000000#32, 0x00000000#32, 0x3F800000#32, 0x40000000#32⟩

/-- A voice playing `note`, its envelope as given. -/
def voiceF (active gate : Bool) (note vel : F32) (eg : EgState) : Voice :=
  ⟨active, gate, note, vel, 0x00000000#32, 0x00000000#32, 0x3F800000#32, 0x40000000#32, ⟨[note]⟩, eg,
    0x00000000#32⟩

/-- Held at sustain 1.0 with release 2.0. -/
def heldEg : EgState := egWords 2 0x3F800000#32 0 0 0x3F800000#32 2

def idleF : Voice := voiceInit paramsF
def soundingF : Voice := voiceF true true 0x42700000#32 0x42FE0000#32 heldEg
def releasingF : Voice := voiceF true false 0x42700000#32 0x42FE0000#32 heldEg

/-- A state with these voices and the operands of the vectors. -/
def stateF (voices : List Voice) : State where
  block := { cmderr := false, args := argsF, mixOut := 0x00000000#32, voices := voices }
  inbox := []
  log := []

/-- The active and the gate bits, slot by slot. -/
def bits (s : State) : List (Bool × Bool) := s.block.voices.map fun v => (v.active, v.gate)

/-! One transaction each. -/

/-- CW1. -/
theorem test_nop_changes_nothing :
    (transact paramsF .nop (stateF [soundingF, idleF])).block = (stateF [soundingF, idleF]).block := by
  decide +kernel

/-- PL12. -/
theorem test_init_silences_and_keeps_arguments :
    let s := stateF [soundingF, releasingF]
    let t := transact paramsF .init { s with block := { s.block with cmderr := true } }
    bits t = [(false, false), (false, false)] ∧ t.block.args = argsF ∧ t.block.cmderr = true ∧
      t.block.voices.map Voice.note = [0x00000000#32, 0x00000000#32] := by decide +kernel

/-- PL2. -/
theorem test_noteOn_takes_the_lowest_free_slot :
    let t := transact paramsF .noteOn (stateF [soundingF, soundingF, idleF, soundingF, idleF])
    bits t = [(true, true), (true, true), (true, true), (true, true), (false, false)] ∧
      t.block.voices[2]? = some { idleF with
        active := true, gate := true, note := 0x42700000#32, velocity := 0x42FE0000#32
        sustain := 0x3F800000#32, release := 0x40000000#32, osc := ⟨[0x42700000#32]⟩
        eg := egWords 1 0 0 0 0x3F800000#32 2 } := by decide +kernel

/-- PL3. -/
theorem test_noteOn_full_pool_drops :
    (transact paramsF .noteOn (stateF [soundingF, releasingF])).block =
      (stateF [soundingF, releasingF]).block := by decide +kernel

/-- The example of 41_pool.md R175, with an Idle slot whose stored note matches (PL10). -/
theorem test_noteOff_releases_matching_active_slots :
    let other := voiceF true true 0x42800000#32 0x42FE0000#32 heldEg
    let stale := voiceF false true 0x42700000#32 0x42FE0000#32 heldEg
    bits (transact paramsF .noteOff (stateF [soundingF, other, soundingF, stale])) =
      [(true, false), (true, true), (true, false), (false, true)] := by decide +kernel

/-- PL7, PL8, PL9: -0.0 matches +0.0, 60.000004 does not match 60.0, a NaN matches nothing. -/
theorem test_noteOff_matches_values :
    let voices := [0x00000000#32, 0x42700001#32, 0x7FC00000#32].map
      fun n => voiceF true true n 0x42FE0000#32 heldEg
    let off (note : F32) : State := transact paramsF .noteOff
      { stateF voices with block := { (stateF voices).block with args := { argsF with note := note } } }
    bits (off 0x80000000#32) = [(true, false), (true, true), (true, true)] ∧
      bits (off 0x42700000#32) = [(true, true), (true, true), (true, true)] ∧
      bits (off 0x7FC00000#32) = [(true, true), (true, true), (true, true)] := by decide +kernel

/-- PL11, and a gate left up on an Idle slot (40_voice.md R152). -/
theorem test_allOff_lowers_every_gate :
    bits (transact paramsF .allOff (stateF [soundingF, releasingF, { idleF with gate := true }])) =
      [(true, false), (true, false), (false, false)] := by decide +kernel

/-- EV1, EV4, EV5: a velocity that is not a zero routes to NoteOn. -/
theorem test_eventNoteOn_starts :
    let ev (vel : F32) := bits (transact paramsF .eventNoteOn
      { stateF [idleF, idleF] with
        block := { (stateF [idleF, idleF]).block with args := { argsF with vel := vel } } })
    ev 0x42FE0000#32 = [(true, true), (false, false)] ∧
      ev 0x00000001#32 = [(true, true), (false, false)] ∧
      ev 0x7FC00000#32 = [(true, true), (false, false)] := by decide +kernel

/-- EV2, EV3: either zero routes to NoteOff. -/
theorem test_eventNoteOn_zero_velocity_stops :
    let ev (vel : F32) := bits (transact paramsF .eventNoteOn
      { stateF [soundingF, idleF] with
        block := { (stateF [soundingF, idleF]).block with args := { argsF with vel := vel } } })
    ev 0x00000000#32 = [(true, false), (false, false)] ∧
      ev 0x80000000#32 = [(true, false), (false, false)] := by decide +kernel

/-- EV6. -/
theorem test_eventNoteOff_stops :
    bits (transact paramsF .eventNoteOff (stateF [soundingF, idleF])) =
      [(true, false), (false, false)] := by decide +kernel

/-- EV7. -/
theorem test_eventOther_changes_nothing :
    (transact paramsF .eventOther (stateF [soundingF, idleF])).block =
      (stateF [soundingF, idleF]).block := by decide +kernel

/-- VO1, VO12: V_STATE reads 0x00000007 and the note is the new one, from Idle and from Releasing. -/
theorem test_vstart_starts_its_slot :
    let t := transact paramsF (.vstart 2) (stateF [idleF, idleF, releasingF])
    bits t = [(false, false), (false, false), (true, true)] ∧
      readValue t.block (.voice 2 .state) = 0x00000007#32 ∧
      (t.block.voices[2]?).map Voice.eg = some (egWords 1 0 0 0 0x3F800000#32 2) := by decide +kernel

/-- CW10: slot 8 of 8. -/
theorem test_vstart_absent_slot_sets_cmderr :
    (transact paramsF (.vstart 8) (stateF (List.replicate 8 idleF))).block =
      { (stateF (List.replicate 8 idleF)).block with cmderr := true } := by decide +kernel

/-- VO4: V_STATE reads 0x00000009. -/
theorem test_vstop_lowers_the_gate :
    let t := transact paramsF (.vstop 1) (stateF [idleF, soundingF])
    readValue t.block (.voice 1 .state) = 0x00000009#32 ∧
      (t.block.voices[1]?).map Voice.eg = some heldEg := by decide +kernel

/-- CW11: slot 31 of 8. -/
theorem test_vstop_absent_slot_sets_cmderr :
    (transact paramsF (.vstop 31) (stateF (List.replicate 8 idleF))).block.cmderr = true := by
  decide +kernel

/-- MX2 in the held phase (the example of 41_pool.md R180): 1.0 + 0.5 = 1.5, an Idle slot silent. -/
theorem test_tick_mixes :
    let half := voiceF true true 0x42800000#32 0x427E0000#32 heldEg
    let t := transact paramsF .tick (stateF [soundingF, half, { idleF with velocity := 0x42FE0000#32 }])
    t.log = [.sample 0x3FC00000#32] ∧ t.block.mixOut = 0x3FC00000#32 ∧
      t.block.voices.map Voice.out = [0x3F800000#32, 0x3F000000#32, 0x00000000#32] := by decide +kernel

/-- VO6: the last sample of the tail is mixed and the voice is Idle after it. -/
theorem test_tick_ends_a_release :
    let tail := voiceF true false 0x42700000#32 0x42FE0000#32
      (egWords 3 0x3F000000#32 0x3F800000#32 1 0x3F800000#32 2)
    let t := transact paramsF .tick (stateF [tail])
    bits t = [(false, false)] ∧ t.log = [.sample 0x00000000#32] := by decide +kernel

/-- RS1, AD17, V_STATE's three fields, ACTIVE and GATE. -/
theorem test_rd_views :
    let s := stateF [soundingF, releasingF, { idleF with gate := true }]
    let rd (addr : Addr) := (transact paramsF (.rd addr 4) s).log
    rd 0x000#12 = [.read .okay 0x00000003#32] ∧ rd 0x00C#12 = [.read .okay 0x00000003#32] ∧
      rd 0x010#12 = [.read .okay 0x00000005#32] ∧ rd 0x880#12 = [.read .okay 0x00000002#32] ∧
      rd 0x844#12 = [.read .okay 0x42700000#32] := by decide +kernel

/-- AD2, AD8, AD15 style refusals: DECERR with zero. -/
theorem test_rd_refused :
    let rd (addr : Addr) (n : Nat) := (transact paramsF (.rd addr n) (stateF [soundingF])).log
    rd 0x004#12 4 = [.read .decErr 0x00000000#32] ∧ rd 0x020#12 1 = [.read .decErr 0x00000000#32] ∧
      rd 0x844#12 4 = [.read .decErr 0x00000000#32] := by decide +kernel

/-- AD23, AD25: a NaN pattern is stored as written; STATUS is cleared by a one. -/
theorem test_wr_registers :
    let s := stateF [idleF]
    (transact paramsF (.wr 0x024#12 4 0x7FC00001#32) s).block.args.vel = 0x7FC00001#32 ∧
      (transact paramsF (.wr 0x008#12 4 0x00000001#32)
        { s with block := { s.block with cmderr := true } }).block.cmderr = false := by decide +kernel

/-- AD10, CW12: a refused write to CMD runs nothing and is no CMDERR; an illegal word is one. -/
theorem test_wr_cmd :
    let s := stateF [idleF]
    transact paramsF (.wr 0x004#12 1 0x00000002#32) s = { s with log := [.write .decErr] } ∧
      transact paramsF (.wr 0x004#12 4 0x00000008#32) s =
        { s with block := { s.block with cmderr := true }, log := [.illegalCommand] } := by
  decide +kernel

/-- RS8, through the machine itself: a presented TICK runs as the first transaction after reset. -/
theorem test_step_runs_the_presented_word :
    (∃ t, step (State.reset.withFetchWord 0 0) = .next t ∧ t.log = [.sample 0x00000000#32]) ∧
      (∃ t, step (State.reset.withFetchWord 32 0x00000002) = .next t ∧
        (t.block.voices[0]?).map Voice.active = some true) :=
  ⟨⟨_, rfl, rfl⟩, ⟨_, rfl, rfl⟩⟩

/-! Witnesses: for each statement with premises, values that meet all of them. -/

/-- `s` with one input presented. -/
def State.presented (s : State) (i : Input) : State := { s with inbox := [i] }

theorem witness_DecodeOfEncodeIsIdentity :
    (Instr.vstart 31).wellFormed = true ∧ (Instr.rd 0xFFF#12 3).wellFormed = true ∧
      (Instr.wr 0x004#12 4 0xFFFFFFFF#32).wellFormed = true := by decide

/-- The smallest and the largest legal capacity, a word on either side of its slot range. -/
theorem witness_LegalListComplementsIllegalConditions :
    1 ≤ 32 ∧ legalWord 1 0x00000006#32 ∧ illegalWord 1 0x00000106#32 ∧
      32 ≤ 32 ∧ legalWord 32 0x00001F07#32 ∧ illegalWord 32 0x00003F07#32 := by
  refine ⟨by decide, ?_, ?_, by decide, ?_, ?_⟩
  · exact .inr (.inr (.inr (.inr (.inr (.inr (.inr (.inr (.inl ⟨0, by decide, by decide⟩))))))))
  · unfold illegalWord; decide
  · exact .inr (.inr (.inr (.inr (.inr (.inr (.inr (.inr (.inr ⟨31, by decide, by decide⟩))))))))
  · unfold illegalWord; decide

/-- Each of the six conditions, at the edge of its field. -/
theorem witness_IllegalWordSetsOnlyCmderr :
    let n := State.reset.block.nVoices
    illegalWord n 0x00000010#32 ∧ illegalWord n 0x00002006#32 ∧ illegalWord n 0x00040000#32 ∧
      illegalWord n 0x00000008#32 ∧ illegalWord n 0x00000100#32 ∧ illegalWord n 0x00010004#32 ∧
      illegalWord n 0x00000806#32 ∧ illegalWord n 0x00030005#32 ∧ ¬ illegalWord n 0x00000706#32 := by
  refine ⟨?_, ?_, ?_, ?_, ?_, ?_, ?_, ?_, ?_⟩ <;> simp only [illegalWord] <;> decide

theorem witness_LegalWordExecutesWithoutError :
    State.reset.wf = true ∧ legalWord State.reset.block.nVoices 0x00000000#32 ∧
      legalWord State.reset.block.nVoices 0x00000706#32 ∧
      legalWord State.reset.block.nVoices 0x00000707#32 := by
  refine ⟨by decide, .inl rfl, ?_, ?_⟩
  · exact .inr (.inr (.inr (.inr (.inr (.inr (.inr (.inr (.inl ⟨7, by decide, by decide⟩))))))))
  · exact .inr (.inr (.inr (.inr (.inr (.inr (.inr (.inr (.inr ⟨7, by decide, by decide⟩))))))))

theorem witness_StepRunsThePresentedTransaction :
    (Instr.wr 0x024#12 4 0x7FC00001#32).wellFormed = true ∧
      (State.presented State.reset (.request (encode (.wr 0x024#12 4 0x7FC00001#32)))).inbox =
        .request (encode (.wr 0x024#12 4 0x7FC00001#32)) :: [] := ⟨by decide, rfl⟩

theorem witness_StepWithNothingPresentedIsIdle : State.reset.inbox = [] := rfl

theorem witness_TickIsFirstWhenPresentedTogether :
    (State.presented State.reset (.together (.read 0x014#12 4))).inbox =
      .together (.read 0x014#12 4) :: [] := rfl

theorem witness_ResetInputRestoresTheResetValues :
    (State.presented (stateF [soundingF]) .reset).inbox = .reset :: [] := rfl

/-- The smallest and the largest legal pool, and the reset state. -/
theorem witness_ReadsOfGlobalRegisters :
    State.reset.wf = true ∧ (stateF [soundingF]).wf = true ∧
      (stateF (List.replicate 32 soundingF)).wf = true := by decide

theorem witness_ReadsOfActiveAndGate :
    (stateF [soundingF, releasingF]).wf = true ∧
      (stateF [soundingF, releasingF]).block.voices[1]? = some releasingF ∧
      (stateF [soundingF, releasingF]).block.nVoices ≤ 2 := by decide

theorem witness_ReadsOfVoiceWindow :
    State.reset.wf = true ∧ State.reset.block.voices[7]? = some (voiceInit params) ∧
      (stateF (List.replicate 32 soundingF)).wf = true ∧
      (stateF (List.replicate 32 soundingF)).block.voices[31]? = some soundingF := by
  exact ⟨by decide, rfl, by decide, by decide⟩

/-- Each way a read is refused, and the last permitted word of each region. -/
theorem witness_RefusedAccessAnswersDecerr_read :
    ¬ readPermitted 8 0x004#12 4 ∧ ¬ readPermitted 8 0x020#12 8 ∧ ¬ readPermitted 8 0x021#12 4 ∧
      ¬ readPermitted 8 0x038#12 4 ∧ ¬ readPermitted 8 0x820#12 4 ∧ ¬ readPermitted 8 0xA00#12 4 ∧
      readPermitted 8 0x034#12 4 ∧ readPermitted 8 0x9DC#12 4 := by
  refine ⟨?_, ?_, ?_, ?_, ?_, ?_, ?_, ?_⟩
  case refine_7 => exact ⟨rfl, .inl (by decide)⟩
  case refine_8 => exact ⟨rfl, .inr ⟨7, 7, by decide, by decide, by decide, by decide⟩⟩
  all_goals
    rintro ⟨hsize, hmem | ⟨slot, k, hslot, -, hk, haddr⟩⟩
    · first | exact absurd hsize (by decide) | exact absurd hmem (by decide)
    · first | exact absurd hsize (by decide) | (simp at haddr; omega)

theorem witness_RefusedAccessAnswersDecerr_write :
    ¬ writePermitted 0x000#12 4 ∧ ¬ writePermitted 0x004#12 1 ∧ ¬ writePermitted 0x804#12 4 ∧
      ¬ writePermitted 0x022#12 4 ∧ writePermitted 0x034#12 4 := by
  unfold writePermitted; decide

theorem witness_CmderrIsSticky :
    let s (i : Input) : State :=
      State.presented { stateF [idleF] with block := { (stateF [idleF]).block with cmderr := true } } i
    (∀ i, (s i).block.cmderr = true) ∧
      (∃ t, step (s .reset) = .next t ∧ t.block.cmderr = false) ∧
      (∃ t, step (s (.request (.control (.write 0x008#12 4 0x00000001#32)))) = .next t ∧
        t.block.cmderr = false) :=
  ⟨fun _ => rfl, ⟨_, rfl, rfl⟩, ⟨_, rfl, rfl⟩⟩

theorem witness_OnlyArgumentWritesChangeArguments :
    ∃ t, exec (.wr 0x034#12 4 0x00000001#32) State.reset = .next t ∧
      t.block.args ≠ State.reset.block.args := ⟨_, rfl, by decide⟩

theorem witness_ByteLanesAreLittleEndian : 7 < 8 ∧ byteLane 0x12345678#32 3 = 0x12#8 := by decide

/-- The lowest and a middle slot. -/
theorem witness_NoteOnStartsTheLowestFreeSlotOrDrops :
    let s := stateF [soundingF, releasingF, idleF]
    (State.reset.block.voices[0]? = some (voiceInit params) ∧ (voiceInit params).active = false ∧
      ∀ (j : Nat) (w : Voice), j < 0 → State.reset.block.voices[j]? = some w → w.active = true) ∧
    (s.block.voices[2]? = some idleF ∧ idleF.active = false ∧
      ∀ (j : Nat) (w : Voice), j < 2 → s.block.voices[j]? = some w → w.active = true) := by
  refine ⟨⟨rfl, rfl, fun j w hj => absurd hj (by omega)⟩, rfl, rfl, ?_⟩
  rintro (_ | _ | j) w hj hw
  · cases hw; rfl
  · cases hw; rfl
  · omega

theorem witness_NoteOnStartsTheLowestFreeSlotOrDrops_full :
    ∀ v ∈ (stateF [soundingF, releasingF]).block.voices, v.active = true := by decide

theorem witness_NoteOffReleasesEveryMatchingSlot :
    (Instr.noteOff = .noteOff ∨ Instr.noteOff = .eventNoteOff) ∧
      (Instr.eventNoteOff = .noteOff ∨ Instr.eventNoteOff = .eventNoteOff) ∧
      releasedVoices 0x42700000#32 [soundingF] = [releasingF] := by decide +kernel

theorem witness_NoteOffIgnoresTheReleaseVelocity :
    let s := stateF [soundingF]
    ∃ t t', exec .noteOff s = .next t ∧
      exec .noteOff { s with block := { s.block with args := { s.block.args with vel := 0 } } } =
        .next t' := ⟨_, _, rfl, rfl⟩

theorem witness_ZeroVelocityNoteOnEventIsNoteOff :
    let s (vel : F32) : State :=
      { stateF [soundingF] with
        block := { (stateF [soundingF]).block with args := { argsF with vel := vel } } }
    (s 0x00000000#32).block.args.vel = 0x00000000#32 ∧
      (s 0x80000000#32).block.args.vel = 0x80000000#32 := ⟨rfl, rfl⟩

/-- With a free slot, and on a full pool; the smallest subnormal is not a zero. -/
theorem witness_NonzeroVelocityNoteOnEventIsNoteOn :
    let s (voices : List Voice) : State :=
      { stateF voices with
        block := { (stateF voices).block with args := { argsF with vel := 0x00000001#32 } } }
    (s [idleF]).block.args.vel ≠ 0x00000000#32 ∧ (s [idleF]).block.args.vel ≠ 0x80000000#32 ∧
      (s [idleF]).block.voices[0]? = some idleF ∧ idleF.active = false ∧
      (s [soundingF]).block.args.vel ≠ 0x00000000#32 ∧
      (s [soundingF]).block.args.vel ≠ 0x80000000#32 ∧
      (∀ v ∈ (s [soundingF]).block.voices, v.active = true) := by decide

/-- The last slot of the pool, and the first absent one. -/
theorem witness_VstartStartsItsSlot :
    State.reset.block.voices[(7#5 : SlotField).toNat]? = some (voiceInit params) ∧
      State.reset.block.nVoices ≤ (8#5 : SlotField).toNat := ⟨rfl, by decide⟩

/-- The last slot of a small pool, and the highest slot number, absent there. -/
theorem witness_VstopLowersTheGateOfItsSlot :
    (stateF [idleF, soundingF]).block.voices[(1#5 : SlotField).toNat]? = some soundingF ∧
      (stateF [idleF, soundingF]).block.nVoices ≤ (31#5 : SlotField).toNat := by decide

theorem witness_StopIsHiddenByALaterStart :
    ∃ t u w, exec (.vstop 0) (stateF [soundingF]) = .next t ∧ exec (.vstart 0) t = .next u ∧
      exec (.vstart 0) (stateF [soundingF]) = .next w ∧
      bits t = [(true, false)] ∧ bits u = [(true, true)] := ⟨_, _, _, rfl, rfl, rfl, rfl, rfl⟩

theorem witness_TickOfAnIdlePoolIsSilence :
    ∀ v ∈ (stateF [idleF, { soundingF with active := false }]).block.voices, v.active = false := by
  decide

/-- Three TICKs of a voice held by EG_F, and the first TICK of a release that ends at once. -/
theorem witness_VoiceOutputFollowsOscillatorAndEnvelope :
    (stateF [idleF, soundingF]).block.voices[1]? = some soundingF ∧ soundingF.active = true ∧
      (∀ j, 1 ≤ j → j ≤ 2 →
        paramsF.eg.running (egAfter paramsF.eg soundingF.gate j soundingF.eg) = true) ∧
      (stateF [releasingF]).block.voices[0]? = some releasingF ∧ releasingF.active = true ∧
      (∀ j, 1 ≤ j → j ≤ 0 →
        paramsF.eg.running (egAfter paramsF.eg releasingF.gate j releasingF.eg) = true) := by
  refine ⟨rfl, rfl, ?_, rfl, rfl, fun j h1 h2 => by omega⟩
  intro j h1 h2
  obtain rfl | rfl : j = 1 ∨ j = 2 := by omega
  · decide +kernel
  · decide +kernel

theorem witness_MixIsNeverNegativeZero :
    (State.presented (stateF [soundingF]) (.request .tick)).block.mixOut ≠ 0x80000000#32 ∧
      ∃ t, step (State.presented (stateF [soundingF]) (.request .tick)) = .next t :=
  ⟨by decide, _, rfl⟩

/-- 1.0 + 0.5: both outputs finite, and every partial sum a value of binary32. -/
theorem witness_RepresentableMixIsTheExactSum :
    let s := stateF [soundingF, voiceF true true 0x42800000#32 0x427E0000#32 heldEg]
    let voices := (transact paramsF .tick s).block.voices
    paramsF.f32 = f32Ieee nanF ∧ (∀ v ∈ voices, isFinitePattern v.out) ∧
      ∀ k, ∃ c : F32, isFinitePattern c ∧
        f32Value c = ((voices.take k).map fun v => f32Value v.out).sum := by
  refine ⟨rfl, by unfold isFinitePattern; decide +kernel, ?_⟩
  rintro (_ | _ | k)
  · exact ⟨0x00000000#32, by unfold isFinitePattern; decide, by decide +kernel⟩
  · exact ⟨0x3F800000#32, by unfold isFinitePattern; decide, by decide +kernel⟩
  · refine ⟨0x3FC00000#32, by unfold isFinitePattern; decide, ?_⟩
    rw [List.take_of_length_le (by
      have h : ((transact paramsF .tick (stateF [soundingF,
        voiceF true true 0x42800000#32 0x427E0000#32 heldEg])).block.voices).length = 2 := by
        decide +kernel
      omega)]
    decide +kernel

theorem witness_FullVelocityIsUnitGain :
    ¬ isNaNPattern 0x80000000#32 ∧ ¬ isNaNPattern 0x7F800000#32 ∧ isNaNPattern 0x7F800001#32 := by
  unfold isNaNPattern; decide

theorem witness_NanOperandsGiveNan :
    (isNaNPattern 0xFFC00000#32 ∨ isNaNPattern 0x3F800000#32) ∧
      (0x3F800000#32 : F32) = 0x3F800000#32 ∧
      (0xFF800000#32 : F32).toNat % 2 ^ 31 = 0x7F800000 ∧ (0x80000000#32 : F32).toNat % 2 ^ 31 = 0 := by
  unfold isNaNPattern; decide

/-- By INIT, and by its word; the TICK that does it depends on the envelope, which has no value. -/
theorem witness_OnlyEnvelopeEndOrInitDeactivates :
    ∀ i, i = Instr.init ∨ i = .wr 0x004#12 4 0x00000001#32 →
      ∃ t, exec i (stateF [soundingF]) = .next t ∧
        (stateF [soundingF]).block.voices[0]? = some soundingF ∧
        t.block.voices[0]? = some (voiceInit params) ∧ soundingF.active = true ∧
        (voiceInit params).active = false := by
  rintro _ (rfl | rfl) <;> exact ⟨_, rfl, rfl, rfl, rfl, rfl⟩

theorem witness_OnlyStartActivates :
    ∃ t, exec .noteOn (stateF [idleF]) = .next t ∧
      (stateF [idleF]).block.voices[0]? = some idleF ∧
      t.block.voices[0]? = some (startedVoice idleF argsF) ∧ idleF.active = false ∧
      (startedVoice idleF argsF).active = true := ⟨_, rfl, rfl, rfl, rfl, rfl⟩

/-- Each of the four events, from Sounding. -/
theorem witness_GatingTransitionTable :
    let s := stateF [soundingF]
    s.block.voices[(0#5 : SlotField).toNat]? = some soundingF ∧
    ∀ i, i = Instr.tick ∨ i = .vstop 0 ∨ i = .vstart 0 ∨ i = .init →
      ∃ t w, exec i s = .next t ∧ t.block.voices[(0#5 : SlotField).toNat]? = some w := by
  refine ⟨rfl, ?_⟩
  rintro _ (rfl | rfl | rfl | rfl) <;> exact ⟨_, _, rfl, rfl⟩

theorem witness_ShapeIsFrozenBetweenStarts :
    ∃ t, exec (.wr 0x030#12 4 0x3E800000#32) (stateF [soundingF]) = .next t ∧
      (stateF [soundingF]).block.voices[0]? = some soundingF ∧
      t.block.voices[0]? = some soundingF ∧ t.block.args.sustain = 0x3E800000#32 :=
  ⟨_, rfl, rfl, rfl, rfl⟩

/-- INIT on a voice whose oscillator holds one word more than a fresh one. -/
theorem witness_HiddenStateHasThreeWriters :
    let v : Voice := { voiceInit params with osc := ⟨0 :: (voiceInit params).osc.words⟩ }
    ∃ t, exec .init (stateF [v]) = .next t ∧ (stateF [v]).block.voices[0]? = some v ∧
      t.block.voices[0]? = some (voiceInit params) ∧
      ((voiceInit params).osc ≠ v.osc ∨ (voiceInit params).eg ≠ v.eg) := by
  refine ⟨_, rfl, rfl, rfl, .inl fun h => ?_⟩
  have := congrArg (fun o : OscState => o.words.length) h
  simp at this

theorem witness_CaptureRegistersLagCommands :
    ∃ t, exec .allOff (stateF [soundingF]) = .next t ∧ Instr.allOff ≠ .tick ∧ Instr.allOff ≠ .init ∧
      Instr.allOff ≠ .wr 0x004#12 4 0x00000001#32 := ⟨_, rfl, by decide, by decide, by decide⟩

theorem witness_PoolCapacityIsFixed :
    let s := State.presented State.reset (.request .tick)
    s.wf = true ∧ ∃ t, step s = .next t := ⟨by decide, _, rfl⟩

theorem witness_CmderrIsWitnessedByTheHistory :
    let s := State.presented (stateF [idleF]) (.request (.control (.write 0x004#12 4 0x00000008#32)))
    (s.block.cmderr = true → Event.illegalCommand ∈ s.log) ∧
      ∃ t, step s = .next t ∧ t.block.cmderr = true :=
  ⟨by decide, _, rfl, rfl⟩

theorem witness_CapacityBoundsPolyphony :
    ({ State.reset with inbox := List.replicate 9 (.request (encode .noteOn)) } : State).inbox =
      List.replicate 9 (.request (encode .noteOn)) ++ [] := rfl

/-! An envelope with every named property that the last three statements take as a premise: full
amplitude while the gate is up, silence and an end at the first step with the gate down. -/

/-- It has one word of state while it runs and none when it has stopped. -/
def gateEg : EgPrim where
  init := fun _ => ⟨[]⟩
  config := fun e _ _ _ _ => e
  restart := fun _ => ⟨[1]⟩
  step := fun _ gate => if gate then (⟨[1]⟩, 0x3F800000#32) else (⟨[]⟩, 0x00000000#32)
  running := fun e => !e.words.isEmpty

theorem gateEg_releaseEnds : egReleaseEndsWithin gateEg (fun _ _ => 1) :=
  fun _ _ _ _ _ _ _ => ⟨1, Nat.le_refl 1, Nat.le_refl 1, rfl⟩

theorem gateEg_after (k : Nat) : egAfter gateEg true k ⟨[1]⟩ = ⟨[1]⟩ := by
  induction k with
  | zero => rfl
  | succ k ih => exact ih

theorem gateEg_heldRuns : egHeldRuns gateEg := by
  intro e k
  show gateEg.running (egAfter gateEg true (k + 1) ⟨[1]⟩) = true
  rw [gateEg_after]; rfl

theorem gateEg_restart : egRestart gateEg := fun _ _ _ _ _ _ _ _ => rfl

/-- A releasing voice whose envelope the block can bring about. -/
theorem witness_ReleasedVoiceFallsSilent :
    let P := withEg gateEg
    let v := voiceF true false 0x42700000#32 0x42FE0000#32 ⟨[1]⟩
    egReleaseEndsWithin P.eg (fun _ _ => 1) ∧ (stateF [v]).block.voices[0]? = some v ∧
      v.active = true ∧ v.gate = false ∧
      EgShaped P.eg P.sampleRate.toF32 0 0 0 0x40000000#32 v.eg :=
  ⟨gateEg_releaseEnds, rfl, rfl, rfl, .restarted (.configured 0 0 0 0x40000000#32)⟩

/-- An Idle voice with its gate down and a Sounding one, restarted and gated once since. -/
theorem witness_HeldEnvelopesNeverEndGated :
    let P := withEg gateEg
    let s := stateF [voiceInit P, voiceF true true 0x42700000#32 0x42FE0000#32 ⟨[1]⟩]
    egHeldRuns P.eg ∧ ∀ v ∈ s.block.voices, heldVoice P.eg v := by
  refine ⟨gateEg_heldRuns, fun v hv => ?_⟩
  rcases List.mem_cons.mp hv with rfl | hv
  · exact ⟨fun _ => rfl, fun h => absurd h Bool.false_ne_true⟩
  · rw [List.mem_singleton.mp hv]
    exact ⟨fun h => absurd h (by decide), fun _ _ => ⟨⟨[]⟩, 1, rfl⟩⟩

theorem witness_RetriggerRestartsTheAttack :
    let P := withEg gateEg
    let v := voiceF true true 0x42700000#32 0x42FE0000#32 ⟨[1]⟩
    egRestart P.eg ∧ (stateF [v]).block.voices[(0#5 : SlotField).toNat]? = some v ∧
      EgShaped P.eg P.sampleRate.toF32 0 0 0 0 v.eg :=
  ⟨gateEg_restart, rfl, .restarted (.configured 0 0 0 0)⟩

end Sys2Proof.Tests
end

section
/-! PROOFS. The family 00_scope.md: the pool's capacity over every step (R8), the velocity gain and
the equality of the default F32 (R14, R21), and the invariants at reset. -/

namespace Sys2Proof.Machine

/-! The capacity of the pool. -/

/-- `step` as `advance` at `params`, without its case split. -/
theorem step_eq_next_advance (s : State) : step s = .next (advance params s) := by
  rw [step_eq, advance]
  cases nextDemand s <;> rfl

@[simp] theorem blockReset_nVoices (P : Params) (n : Nat) : (blockReset P n).nVoices = n :=
  List.length_replicate

/-- A capacity is legal by the number of slots alone (00_scope.md R8). -/
theorem block_wf_iff (b : Block) : b.wf = true ↔ 1 ≤ b.nVoices ∧ b.nVoices ≤ 32 := by
  simp [Block.wf]

/-- Every step keeps the number of slots, the reset input included (10_state.md R39,
70_reset_and_hazards.md R243). -/
theorem advance_nVoices (P : Params) (s : State) :
    (advance P s).block.nVoices = s.block.nVoices := by
  refine advance_keeps (I := fun b => b.nVoices = s.block.nVoices) ?_ ?_ s rfl
  · intro b h
    rwa [blockReset_nVoices]
  · intro i t h
    rwa [transact_nVoices]

/-- Settles O51: a step is `advance`, which keeps the number of slots, and whether a capacity is
legal depends on that number alone. -/
theorem poolCapacityIsFixed : Obligations.PoolCapacityIsFixed := by
  intro s t legal stepped
  rw [step_eq_next_advance] at stepped
  cases stepped
  have kept := advance_nVoices params s
  refine ⟨kept, (block_wf_iff _).mpr ?_⟩
  rw [kept]
  exact (block_wf_iff _).mp legal

/-- Settles O52: after reset the pool has the default eight slots, the mix is +0.0 and CMDERR is 0. -/
theorem resetMeetsTheInvariants : Obligations.ResetMeetsTheInvariants := by
  refine ⟨(block_wf_iff _).mpr ?_, ?_, ?_⟩
  · have slots : State.reset.block.nVoices = 8 := blockReset_nVoices params Config.nVoices
    omega
  · show posZero ≠ negZero
    decide
  · intro cmderr
    cases cmderr

/-! Products and quotients of finite values (00_scope.md R14, R21; log 12). -/

theorem params_mul : params.f32.mul = f32Mul Config.nanOut := rfl
theorem params_div : params.f32.div = f32Div Config.nanOut := rfl
theorem params_eq : params.f32.eq = f32Eq := rfl

/-- A finite pattern is neither a NaN nor an infinity. -/
theorem not_nan_not_inf_of_finite {a : F32} (finite : a.toNat % 2 ^ 31 < 0x7F800000) :
    f32IsNaN a = false ∧ f32IsInf a = false := by
  refine ⟨Bool.eq_false_iff.mpr fun h => ?_, Bool.eq_false_iff.mpr fun h => ?_⟩
  · have := (f32IsNaN_iff a).mp h
    omega
  · have := (f32IsInf_iff a).mp h
    omega

/-- The magnitude of anything but a zero is positive. -/
theorem f32Magnitude_pos {a : F32} (nonzero : f32IsZero a = false) : 0 < f32Magnitude a := by
  unfold f32Magnitude
  split
  · rename_i subnormal
    have : f32Fraction a ≠ 0 := by simpa [f32IsZero, subnormal] using nonzero
    omega
  · positivity

/-- 1.0 is `2 ^ 149` of the smallest subnormals. -/
theorem f32Magnitude_one : f32Magnitude 0x3F800000#32 = 2 ^ 149 := by decide

section
variable (nan : ArithOp → F32 → F32 → NanPattern) {a b : F32}

/-- The product of two finite values is their exact product, rounded once. -/
theorem f32Mul_of_finite (ha : a.toNat % 2 ^ 31 < 0x7F800000)
    (hb : b.toNat % 2 ^ 31 < 0x7F800000) :
    f32Mul nan a b =
      f32Round (f32Sign a != f32Sign b) (f32Magnitude a * f32Magnitude b) (2 ^ 149) := by
  obtain ⟨aNan, aInf⟩ := not_nan_not_inf_of_finite ha
  obtain ⟨bNan, bInf⟩ := not_nan_not_inf_of_finite hb
  simp [f32Mul, aNan, aInf, bNan, bInf]

/-- The quotient of a finite value by a finite nonzero one is their exact quotient, rounded once. -/
theorem f32Div_of_finite (ha : a.toNat % 2 ^ 31 < 0x7F800000)
    (hb : b.toNat % 2 ^ 31 < 0x7F800000) (nonzero : f32IsZero b = false) :
    f32Div nan a b =
      f32Round (f32Sign a != f32Sign b) (f32Magnitude a * 2 ^ 149) (f32Magnitude b) := by
  obtain ⟨aNan, aInf⟩ := not_nan_not_inf_of_finite ha
  obtain ⟨bNan, bInf⟩ := not_nan_not_inf_of_finite hb
  simp [f32Div, aNan, aInf, bNan, bInf, nonzero]

/-- A finite nonzero value divided by itself is 1.0. -/
theorem f32Div_self (finite : a.toNat % 2 ^ 31 < 0x7F800000) (nonzero : f32IsZero a = false) :
    f32Div nan a a = 0x3F800000#32 := by
  rw [f32Div_of_finite nan finite finite nonzero, bne_self_eq_false, ← f32Magnitude_one,
    Nat.mul_comm, f32Round_magnitude false (by decide) (f32Magnitude_pos nonzero)]
  decide

/-- +0.0 divided by a finite nonzero value is the zero of the divisor's sign. -/
theorem f32Div_posZero (finite : b.toNat % 2 ^ 31 < 0x7F800000) (nonzero : f32IsZero b = false) :
    f32Div nan posZero b = f32Zero (f32Sign b) := by
  have rounded := f32Round_magnitude (f32Sign b) (c := posZero) (by decide)
    (f32Magnitude_pos nonzero)
  have magnitude : f32Magnitude posZero = 0 := by decide
  have sign : f32Sign posZero = false := by decide
  rw [magnitude, Nat.zero_mul] at rounded
  rw [f32Div_of_finite nan (by decide) finite nonzero, magnitude, Nat.zero_mul, sign,
    Bool.false_bne]
  exact rounded

/-- An infinity times 1.0 is that infinity. -/
theorem f32Mul_one_of_inf (infinite : a.toNat % 2 ^ 31 = 0x7F800000) :
    f32Mul nan a 0x3F800000#32 = a := by
  have aNan : f32IsNaN a = false := by
    rw [Bool.eq_false_iff, ne_eq, f32IsNaN_iff]; omega
  have aInf : f32IsInf a = true := (f32IsInf_iff a).mpr infinite
  have aZero : f32IsZero a = false := by
    rw [Bool.eq_false_iff, ne_eq, f32IsZero_iff]; omega
  have oneNan : f32IsNaN 0x3F800000#32 = false := by decide
  have oneZero : f32IsZero 0x3F800000#32 = false := by decide
  have oneSign : f32Sign 0x3F800000#32 = false := by decide
  have packed : f32Infinity (f32Sign a) = a := by
    rw [f32Infinity, ← infinite, f32Pack_self]
  simp [f32Mul, aNan, aInf, aZero, oneNan, oneZero, oneSign, packed]

/-- A factor of 1.0 passes every pattern that is not a NaN: a finite value's product is its own
magnitude, which rounds to itself. -/
theorem f32Mul_one (notNan : a.toNat % 2 ^ 31 ≤ 0x7F800000) :
    f32Mul nan a 0x3F800000#32 = a := by
  rcases Nat.lt_or_eq_of_le notNan with finite | infinite
  · have sign : f32Sign 0x3F800000#32 = false := by decide
    rw [f32Mul_of_finite nan finite (by decide), f32Magnitude_one,
      f32Round_magnitude _ finite (by decide), sign, Bool.bne_false, f32Pack_self]
  · exact f32Mul_one_of_inf nan infinite

end

/-- Settles O42: 127.0 is finite and not zero, so it divides itself to 1.0 and +0.0 to +0.0. -/
theorem fullVelocityIsUnitGain : Obligations.FullVelocityIsUnitGain := by
  unfold Obligations.FullVelocityIsUnitGain
  rw [params_mul, params_div]
  have nonzero : f32IsZero velocityScale = false := by decide
  refine ⟨f32Div_self _ (by decide) nonzero, ?_, fun a notNan => ?_⟩
  · exact (f32Div_posZero _ (by decide) nonzero).trans (by decide)
  · exact f32Mul_one _ (Nat.le_of_not_lt notNan)

/-! Equality. -/

/-- `f32Eq` by its operands' classes (00_scope.md R21). -/
theorem f32Eq_iff (a b : F32) : f32Eq a b = true ↔
    ¬ f32IsNaN a = true ∧ ¬ f32IsNaN b = true ∧
      (a = b ∨ (f32IsZero a = true ∧ f32IsZero b = true)) := by
  simp [f32Eq, and_assoc]

/-- Settles O43: `f32Eq`, with the classes of its operands read off their patterns. -/
theorem equalityIsQuiet : Obligations.EqualityIsQuiet := by
  intro a b
  rw [params_eq, f32Eq_iff, f32IsNaN_iff, f32IsNaN_iff, f32IsZero_iff, f32IsZero_iff]
  rfl

end Sys2Proof.Machine
end

section
/-! PROOFS. The family 10_state.md: what a read or a write of each register does (R40 to R53), the
reset values (R34), and which transactions write CMDERR, the argument registers and the fields of a
voice (R37, R38, R42, R46, R59). -/

namespace Sys2Proof

/-- The transaction an instruction was decoded from is the instruction's own: the decoder drops no
bit (30_encoding.md R101). -/
theorem encode_decode (r : Request) : encode (decode r) = r := by
  match r with
  | .tick => rfl
  | .control (.read addr n) => rfl
  | .control (.write addr n d) =>
    show encode (decodeAccess (.write addr n d)) = _
    by_cases cmd : addr = cmdOffset ∧ n = 4
    · obtain ⟨rfl, rfl⟩ := cmd
      rw [decodeAccess_cmd]
      cases word : decodeCommand d with
      | ok c => rw [encode_toInstr, commandRequest, encodeCommand_of_decodeCommand word]
      | error e => rfl
    · rw [decodeAccess_other cmd]
      rfl

end Sys2Proof

namespace Sys2Proof.Machine

/-! Reads. -/

/-- A permitted read answers the register's value and changes nothing else (20_memory.md R80). -/
theorem runRd_of_decodeRead {s : State} {addr : Addr} {n : Nat} {t : ReadTarget}
    (decoded : decodeRead s.block.nVoices addr n = .ok t) :
    runRd addr n s = answer s s.block (.read .okay (readValue s.block t)) := by
  rw [runRd, decoded]

/-- A read of a global register, by its offset. -/
theorem readsAs_global (s : State) {addr : Addr} {r : GlobalReg} {t : ReadTarget}
    (offset : addr.toNat = 4 * globalIndex r) (permitted : readable (.global r) = .ok t) :
    readsAs s addr (readValue s.block t) := by
  have decoded : decodeRead s.block.nVoices addr 4 = .ok t := by
    rw [decodeRead, locate_eq_ok.mpr ⟨rfl, .inl ⟨r, rfl, offset⟩⟩]
    exact permitted
  rw [readsAs, exec_eq_transact, transact, runRd_of_decodeRead decoded]
  rfl

/-- A slot of a pool of legal capacity is one of 32. -/
theorem slot_lt_of_wf {s : State} {i : Nat} {v : Voice} (legal : s.wf = true)
    (slot : s.block.voices[i]? = some v) : i < s.block.nVoices ∧ i < 32 := by
  obtain ⟨present, -⟩ := List.getElem?_eq_some_iff.mp slot
  obtain ⟨-, bound⟩ := (block_wf_iff s.block).mp legal
  exact ⟨present, Nat.lt_of_lt_of_le present bound⟩

/-- A read of a register of the window of slot `i`, by its offset (20_memory.md R72). -/
theorem readsAs_voice {s : State} {i : Nat} {v : Voice} (legal : s.wf = true)
    (slot : s.block.voices[i]? = some v) (r : VoiceReg) {offset : Nat}
    (window : offset = 0x800 + 0x40 * i + 4 * voiceIndex r) :
    readsAs s (BitVec.ofNat 12 offset) (voiceRegRead v r) := by
  obtain ⟨present, small⟩ := slot_lt_of_wf legal slot
  have register := voiceIndex_lt r
  have addr : (BitVec.ofNat 12 offset).toNat = 0x800 + 0x40 * i + 4 * voiceIndex r := by
    rw [BitVec.toNat_ofNat]
    omega
  have decoded : decodeRead s.block.nVoices (BitVec.ofNat 12 offset) 4 = .ok (.voice i r) := by
    rw [decodeRead, locate_eq_ok.mpr ⟨rfl, .inr ⟨i, r, rfl, present, small, addr⟩⟩]
    rfl
  rw [readsAs, exec_eq_transact, transact, runRd_of_decodeRead decoded, readValue, slot]
  rfl

/-- STATUS reads CMDERR in bit 0 and zeros above it (10_state.md R42). -/
theorem statusWord_eq (cmderr : Bool) :
    statusWord cmderr = if cmderr = true then 0x00000001#32 else 0x00000000#32 := by
  cases cmderr <;> decide

/-- The view reads 0 in the bit of a slot the pool does not have (10_state.md R43, R44). -/
theorem slotBits_absent (f : Voice → Bool) {voices : List Voice} {i : Nat}
    (absent : voices.length ≤ i) : (slotBits f voices).getLsbD i = false := by
  by_cases small : i < 32
  · rw [slotBits_getLsbD f voices i small, List.getElem?_eq_none absent]
    rfl
  · exact BitVec.getLsbD_of_ge _ _ (Nat.le_of_not_lt small)

/-- Settles O16: each register at its offset, ID and STATUS by what their views spell. -/
theorem readsOfGlobalRegisters : Obligations.ReadsOfGlobalRegisters := by
  intro s legal
  obtain ⟨-, bound⟩ := (block_wf_iff s.block).mp legal
  refine ⟨?_, ?_, ?_, ?_, ?_, ?_, ?_, ?_, ?_⟩
  · rw [← idWord_eq (by omega : s.block.nVoices < 64)]
    exact readsAs_global s (r := .id) rfl rfl
  · rw [← statusWord_eq]
    exact readsAs_global s (r := .status) rfl rfl
  · exact readsAs_global s (r := .mixOut) rfl rfl
  · exact readsAs_global s (r := .arg .note) rfl rfl
  · exact readsAs_global s (r := .arg .vel) rfl rfl
  · exact readsAs_global s (r := .arg .attack) rfl rfl
  · exact readsAs_global s (r := .arg .decay) rfl rfl
  · exact readsAs_global s (r := .arg .sustain) rfl rfl
  · exact readsAs_global s (r := .arg .release) rfl rfl

/-- Settles O17: both registers are the view of one bit a slot, read bit by bit. -/
theorem readsOfActiveAndGate : Obligations.ReadsOfActiveAndGate := by
  intro s legal
  refine ⟨slotBits Voice.active s.block.voices, slotBits Voice.gate s.block.voices,
    readsAs_global s (r := .active) rfl rfl, readsAs_global s (r := .gate) rfl rfl, ?_, ?_⟩
  · intro i v slot
    obtain ⟨-, small⟩ := slot_lt_of_wf legal slot
    simp [slotBits_getLsbD _ _ i small, slot]
  · intro i absent
    exact ⟨slotBits_absent Voice.active absent, slotBits_absent Voice.gate absent⟩

/-- Settles O18: each register at its place in the window, V_STATE by its two bits. -/
theorem readsOfVoiceWindow : Obligations.ReadsOfVoiceWindow := by
  intro s i v legal slot
  rw [← voiceStateWord_eq]
  exact ⟨readsAs_voice legal slot .state rfl, readsAs_voice legal slot .note rfl,
    readsAs_voice legal slot .vel rfl, readsAs_voice legal slot .attack rfl,
    readsAs_voice legal slot .decay rfl, readsAs_voice legal slot .sustain rfl,
    readsAs_voice legal slot .release rfl, readsAs_voice legal slot .out rfl⟩

/-- Settles O19: a read only answers, and its response is the address decoder's. -/
theorem readsHaveNoSideEffect : Obligations.ReadsHaveNoSideEffect := by
  intro s addr n
  rw [exec_eq_transact, transact, ← decodeRead_isOk]
  cases decoded : decodeRead s.block.nVoices addr n with
  | ok t =>
    refine ⟨.okay, readValue s.block t, ?_, by simp⟩
    rw [runRd_of_decodeRead decoded]
    rfl
  | error e =>
    refine ⟨.decErr, 0, ?_, by simp⟩
    rw [runRd, decoded]
    rfl

/-! Writes. -/

/-- A write to CMD executes the word (10_state.md R41). -/
theorem runWr_cmd (P : Params) (d : Word) (s : State) :
    runWr P 0x004#12 4 d s = executeCommand P d s := by
  rw [runWr, decodeWrite_eq_ok.mpr ⟨rfl, .inl ⟨rfl, rfl⟩⟩]

/-- A write to STATUS (10_state.md R42). -/
theorem runWr_status (P : Params) (d : Word) (s : State) :
    runWr P 0x008#12 4 d s = answer s (statusWrite s.block d) (.write .okay) := by
  rw [runWr, decodeWrite_eq_ok.mpr ⟨rfl, .inr (.inl ⟨rfl, rfl⟩)⟩]

/-- A write to an argument register, by its offset (10_state.md R46). -/
theorem runWr_arg (P : Params) {addr : Addr} (r : ArgReg) (d : Word) (s : State)
    (offset : addr.toNat = 4 * globalIndex (.arg r)) :
    runWr P addr 4 d s =
      answer s { s.block with args := argWrite s.block.args d r } (.write .okay) := by
  rw [runWr, decodeWrite_eq_ok.mpr ⟨rfl, .inr (.inr ⟨r, rfl, offset⟩)⟩]

/-- Executing a command's word runs its row (30_encoding.md R100). -/
theorem executeCommand_encodeCommand (P : Params) (c : Command) (s : State) :
    executeCommand P (encodeCommand c) s = transact P c.toInstr s := by
  rw [executeCommand, decodeCommand_encodeCommand, ← runCommand_eq_transact]

/-- Bit 0 of a word is its parity. -/
theorem getLsbD_zero_iff (d : Word) : d.getLsbD 0 = true ↔ d.toNat % 2 = 1 := by
  simp [BitVec.getLsbD, Nat.testBit_zero]

/-- The STATUS write changes CMDERR alone. -/
theorem statusWrite_eq (b : Block) (d : Word) :
    statusWrite b d = { b with cmderr := if d.toNat % 2 = 1 then false else b.cmderr } := by
  unfold statusWrite
  simp only [getLsbD_zero_iff]
  split <;> rfl

/-- Settles O7: the write to CMD executes the word, and the word decodes to its command. -/
theorem cmdWriteRunsTheCommand : Obligations.CmdWriteRunsTheCommand := by
  intro c s
  rw [exec_eq_transact, exec_eq_transact, ← executeCommand_encodeCommand, ← runWr_cmd]
  rfl

/-- Settles O21: each argument register at its offset. -/
theorem argumentWriteStoresThePattern : Obligations.ArgumentWriteStoresThePattern := by
  intro s d
  have stored : ∀ {addr : Addr} (r : ArgReg), addr.toNat = 4 * globalIndex (.arg r) →
      exec (.wr addr 4 d) s =
        .next (answer s { s.block with args := argWrite s.block.args d r } (.write .okay)) :=
    fun r offset => by rw [exec_eq_transact, transact, runWr_arg params r d s offset]
  exact ⟨stored .note rfl, stored .vel rfl, stored .attack rfl, stored .decay rfl,
    stored .sustain rfl, stored .release rfl⟩

/-- Settles O22: the STATUS write, with the data bit read as a parity. -/
theorem statusWriteClearsCmderrOnOne : Obligations.StatusWriteClearsCmderrOnOne := by
  intro s d
  rw [exec_eq_transact, transact, runWr_status, statusWrite_eq]
  rfl

/-! Reset. -/

/-- Start as the statements spell it out. -/
theorem voiceStart_eq_startedVoice (x : Args) (v : Voice) :
    voiceStart params x v = startedVoice v x := rfl

/-- Initialize as the statements spell it out. -/
theorem voiceInit_eq_initializedVoice : voiceInit params = initializedVoice := rfl

/-- Settles O14: the block of eight slots after reset, register by register. -/
theorem resetStateHoldsTheResetValues : Obligations.ResetStateHoldsTheResetValues := by
  refine ⟨rfl, rfl, rfl, ?_⟩
  rw [← voiceInit_eq_initializedVoice]
  rfl

/-! The writers of CMDERR and of the argument registers. -/

/-- A transaction that clears CMDERR is a STATUS write with bit 0 set (10_state.md R42). -/
theorem statusWrite_of_cmderr_cleared {P : Params} {i : Instr} {s : State}
    (cleared : (transact P i s).block.cmderr = false) (raised : s.block.cmderr = true) :
    ∃ d, i = .wr 0x008#12 4 d ∧ d.toNat % 2 = 1 := by
  have change := transact_blockChange P i s
  generalize (transact P i s).block = b at change cleared
  cases change with
  | cmderrCleared d instr bit => exact ⟨d, instr, (getLsbD_zero_iff d).mp bit⟩
  | _ => simp [raised] at cleared

/-- Settles O23: a step that clears CMDERR takes the reset input, or a transaction that decodes to a
STATUS write, which is that write. -/
theorem cmderrIsSticky : Obligations.CmderrIsSticky := by
  intro s t raised stepped cleared
  rw [step_eq_next_advance] at stepped
  cases stepped
  rcases advance_cases params s with
    ⟨-, idle⟩ | ⟨rest, inbox, -⟩ | ⟨r, rest, inbox, ran⟩ | ⟨a, rest, -, ran⟩
  · rw [idle, raised] at cleared
    cases cleared
  · exact .inl ⟨rest, inbox⟩
  · rw [ran] at cleared
    obtain ⟨d, instr, odd⟩ := statusWrite_of_cmderr_cleared cleared raised
    have request : r = .control (.write 0x008#12 4 d) := by
      rw [← encode_decode r, instr]
      rfl
    exact .inr ⟨d, rest, request ▸ inbox, odd⟩
  · rw [ran] at cleared
    obtain ⟨d, instr, -⟩ := statusWrite_of_cmderr_cleared cleared raised
    cases instr

/-- Settles O24: of all that a transaction can do to the block, an argument write alone changes the
argument registers. -/
theorem onlyArgumentWritesChangeArguments : Obligations.OnlyArgumentWritesChangeArguments := by
  intro i s t ran changed
  rw [exec_eq_transact] at ran
  cases ran
  have change := transact_blockChange params i s
  generalize (transact params i s).block = b at change changed
  cases change with
  | argument addr d r instr offset => exact ⟨addr, d, instr, offset⟩
  | _ => simp at changed

/-! The writers of a voice. -/

/-- A TICK of an inactive voice captures silence and changes nothing else (40_voice.md R140 (a)). -/
theorem voiceTick_inactive {P : Params} {v : Voice} (idle : v.active = false) :
    voiceTick P v = { v with out := posZero } := by
  rw [voiceTick, voiceProcess_inactive idle]

/-- A TICK leaves the frozen shape (10_state.md R38). -/
theorem voiceTick_shape (P : Params) (v : Voice) :
    (voiceTick P v).attack = v.attack ∧ (voiceTick P v).decay = v.decay ∧
      (voiceTick P v).sustain = v.sustain ∧ (voiceTick P v).release = v.release := by
  unfold voiceTick voiceProcess
  split <;> exact ⟨rfl, rfl, rfl, rfl⟩

/-- What `exec` can do to slot `k`. -/
theorem exec_voiceChange {i : Instr} {s t : State} {k : Nat} {v w : Voice}
    (ran : exec i s = .next t) (before : s.block.voices[k]? = some v)
    (after : t.block.voices[k]? = some w) : VoiceChange params i s.block.args v w := by
  rw [exec_eq_transact] at ran
  cases ran
  exact transact_voiceChange before after

/-- Settles O46: of all that a transaction can do to an inactive voice, only Start sets `active`. -/
theorem onlyStartActivates : Obligations.OnlyStartActivates := by
  intro i s t k v w ran before after idle active
  cases exec_voiceChange ran before after with
  | start => exact voiceStart_eq_startedVoice _ _
  | same => simp [idle] at active
  | stop => simp [idle] at active
  | initialized _ => cases active
  | tick _ => simp [voiceTick_inactive idle, idle] at active

/-- Settles O48: Stop and TICK leave the shape; Start and Initialize are the other two cases. -/
theorem shapeIsFrozenBetweenStarts : Obligations.ShapeIsFrozenBetweenStarts := by
  intro i s t k v w ran before after
  cases exec_voiceChange ran before after with
  | same => exact .inl ⟨rfl, rfl, rfl, rfl⟩
  | start => exact .inr (.inl (voiceStart_eq_startedVoice _ _))
  | stop => exact .inl ⟨rfl, rfl, rfl, rfl⟩
  | initialized _ => exact .inr (.inr voiceInit_eq_initializedVoice)
  | tick _ => exact .inl (voiceTick_shape params v)

/-- Settles O49: Stop leaves both hidden states, and so does the TICK of an inactive voice. -/
theorem hiddenStateHasThreeWriters : Obligations.HiddenStateHasThreeWriters := by
  intro i s t k v w ran before after changed
  cases exec_voiceChange ran before after with
  | same => simp at changed
  | start => exact .inl (voiceStart_eq_startedVoice _ _)
  | stop => simp at changed
  | initialized _ => exact .inr (.inl voiceInit_eq_initializedVoice)
  | tick instr =>
    cases active : v.active with
    | true => exact .inr (.inr ⟨instr, rfl⟩)
    | false => simp [voiceTick_inactive active] at changed

end Sys2Proof.Machine
end

section
/-! PROOFS. The family 20_memory.md: the one order in which transactions take effect (R90 to R92),
the answer each one gives (R80), and the byte lanes of a word (R78). -/

namespace Sys2Proof

/-- A well-formed instruction is what its own transaction decodes to (30_encoding.md R101). -/
theorem decode_encode {i : Instr} (wf : i.wellFormed = true) : decode (encode i) = i := by
  cases i with
  | tick => exact Laws.RoundTrip.tick wf
  | rd addr n => exact Laws.RoundTrip.rd addr n wf
  | wr addr n data => exact Laws.RoundTrip.wr addr n data wf
  | vstart slot => exact Laws.RoundTrip.vstart slot wf
  | vstop slot => exact Laws.RoundTrip.vstop slot wf
  | nop => exact Laws.RoundTrip.nop wf
  | init => exact Laws.RoundTrip.init wf
  | noteOn => exact Laws.RoundTrip.noteOn wf
  | noteOff => exact Laws.RoundTrip.noteOff wf
  | allOff => exact Laws.RoundTrip.allOff wf
  | eventNoteOn => exact Laws.RoundTrip.eventNoteOn wf
  | eventNoteOff => exact Laws.RoundTrip.eventNoteOff wf
  | eventOther => exact Laws.RoundTrip.eventOther wf

end Sys2Proof

namespace Sys2Proof.Machine

/-! The order of transactions. -/

/-- A step with a transaction at the head of the inbox runs what it decodes to (20_memory.md R91). -/
theorem step_of_request {s : State} {r : Request} {rest : List Input}
    (presented : s.inbox = .request r :: rest) :
    step s = exec (decode r) { s with inbox := rest } := by
  rw [step, nextDemand, presented]

/-- A step with a pair at the head of the inbox runs the TICK and leaves the access presented
(20_memory.md R92). -/
theorem step_of_together {s : State} {a : Access} {rest : List Input}
    (presented : s.inbox = .together a :: rest) :
    step s = exec .tick { s with inbox := .request (.control a) :: rest } := by
  rw [step, nextDemand, presented]
  rfl

/-- Settles O8: the transaction taken off the inbox decodes back to the instruction. -/
theorem stepRunsThePresentedTransaction : Obligations.StepRunsThePresentedTransaction := by
  intro s i rest wf presented
  rw [step_of_request presented, decode_encode wf]

/-- Settles O12: `exec` is `transact` at `params`, whose every case answers once. -/
theorem everyTransactionAnswersOnce : Obligations.EveryTransactionAnswersOnce := by
  intro i s
  obtain ⟨e, log, inbox⟩ := transact_answer params i s
  exact ⟨transact params i s, e, exec_eq_transact i s, log, inbox⟩

/-- Settles O10: the TICK takes no input, so the access is still at the head of the inbox for the
next step. -/
theorem tickIsFirstWhenPresentedTogether : Obligations.TickIsFirstWhenPresentedTogether := by
  intro s a rest presented
  have first := step_of_together presented
  obtain ⟨t, e, ticked, -, access⟩ :=
    everyTransactionAnswersOnce .tick { s with inbox := .request (.control a) :: rest }
  exact ⟨t, first, first.trans ticked, step_of_request access⟩

/-! The byte lanes. -/

/-- Settles O25: lane `k` is the field of eight bits that starts at bit `8 * k`. -/
theorem byteLanesAreLittleEndian : Obligations.ByteLanesAreLittleEndian := by
  intro w k j inLane
  rw [byteLane, BitVec.getLsbD_extractLsb', decide_eq_true inLane, Bool.true_and]

end Sys2Proof.Machine
end

section
/-! PROOFS. The family 30_encoding.md: the decoder and the encoder undo each other (R100 to R110), the
legal words and the illegal ones (R104, R105), and what a word written to CMD does (R100, R212). -/

namespace Sys2Proof

/-! The round trips. -/

/-- Settles O1: one round trip per constructor, each in the family RoundTrip. -/
theorem decodeOfEncodeIsIdentity : Obligations.DecodeOfEncodeIsIdentity :=
  fun _ wf => decode_encode wf

/-- Settles O2: a word written to CMD that decodes is the word of its command, and any other request
decodes to itself. -/
theorem encodeOfDecodeIsIdentity : Obligations.EncodeOfDecodeIsIdentity := encode_decode

/-- Settles O3: the words evaluated. -/
theorem writtenOutWordsDecode : Obligations.WrittenOutWordsDecode := by
  refine ⟨?_, ?_, ?_, ?_, ?_⟩ <;> decide

/-! The legal words are the words of the commands whose slot the pool has. -/

/-- The slot a command names, if it names one, is a slot of a pool of `n` (40_voice.md R160, R162). -/
def Command.FitsPool (n : Nat) : Command → Prop
  | .vstart slot => slot.toNat < n
  | .vstop slot => slot.toNat < n
  | _ => True

/-- The slot range as the statements spell it, for the two commands that have one. -/
theorem fitsPool_iff {n : Nat} {c : Command} :
    c.FitsPool n ↔ ∀ slot, c = .vstart slot ∨ c = .vstop slot → slot.toNat < n := by
  cases c <;> simp [Command.FitsPool]

theorem not_fitsPool_iff {n : Nat} {c : Command} :
    ¬ c.FitsPool n ↔ ∃ slot, (c = .vstart slot ∨ c = .vstop slot) ∧ n ≤ slot.toNat := by
  simp [fitsPool_iff]

/-- The decoder accepts a word just when it is the word of the command it reads. -/
theorem decodeCommand_eq_ok {w : Word} {c : Command} :
    decodeCommand w = .ok c ↔ encodeCommand c = w :=
  ⟨encodeCommand_of_decodeCommand, fun word => word ▸ decodeCommand_encodeCommand c⟩

/-- The masks of well-formedness match just the words the decoder accepts. -/
theorem isCommandWord_iff {w : Word} : isCommandWord w = true ↔ ∃ c, decodeCommand w = .ok c := by
  constructor
  · intro masked
    obtain ⟨c, word⟩ := encodeCommand_of_isCommandWord masked
    exact ⟨c, decodeCommand_eq_ok.mpr word.symm⟩
  · rintro ⟨c, decoded⟩
    exact isCommandWord_of_decodeCommand decoded

/-- R105's conditions on the word of a command: only the slot range, condition (e), is left. -/
theorem illegalWord_encodeCommand (n : Nat) (c : Command) :
    illegalWord n (encodeCommand c) ↔ ¬ c.FitsPool n := by
  cases c with
  | vstart slot =>
    have range := slot.isLt
    simp only [illegalWord, (toNat_slot_word slot).1, Command.FitsPool]
    omega
  | vstop slot =>
    have range := slot.isLt
    simp only [illegalWord, (toNat_slot_word slot).2, Command.FitsPool]
    omega
  | _ => simp [illegalWord, encodeCommand, Command.FitsPool]

/-- A slot row of R104's list as a number, for a slot that has a code in the SLOT field. -/
theorem eq_slotRow_iff {w : Word} {op slot : Nat} (code : op < 8) (inField : slot < 32) :
    w = BitVec.ofNat 32 (op + slot * 2 ^ 8) ↔ w.toNat = op + slot * 2 ^ 8 := by
  rw [← BitVec.toNat_inj, BitVec.toNat_ofNat, Nat.mod_eq_of_lt (by omega)]

/-- The word of VSTART for a slot number is its row of R104's list, and so is that of VSTOP. -/
theorem encodeCommand_slotRow {slot : Nat} (inField : slot < 32) :
    encodeCommand (.vstart (BitVec.ofNat 5 slot)) = BitVec.ofNat 32 (0x00000006 + slot * 2 ^ 8) ∧
      encodeCommand (.vstop (BitVec.ofNat 5 slot)) =
        BitVec.ofNat 32 (0x00000007 + slot * 2 ^ 8) := by
  have code : (BitVec.ofNat 5 slot).toNat = slot := Nat.mod_eq_of_lt inField
  rw [eq_slotRow_iff (by decide) inField, eq_slotRow_iff (by decide) inField,
    (toNat_slot_word _).1, (toNat_slot_word _).2, code]
  omega

/-- A word on R104's list is the word of a command whose slot the pool has. -/
theorem exists_command_of_legalWord {n : Nat} {w : Word} (capacity : n ≤ 32)
    (legal : legalWord n w) : ∃ c, encodeCommand c = w ∧ c.FitsPool n := by
  have slotFits : ∀ slot < n, (BitVec.ofNat 5 slot).toNat < n := fun slot inPool =>
    (Nat.mod_le slot (2 ^ 5)).trans_lt inPool
  rcases legal with rfl | rfl | rfl | rfl | rfl | rfl | rfl | rfl |
    ⟨slot, inPool, rfl⟩ | ⟨slot, inPool, rfl⟩
  · exact ⟨.nop, rfl, trivial⟩
  · exact ⟨.init, rfl, trivial⟩
  · exact ⟨.noteOn, rfl, trivial⟩
  · exact ⟨.noteOff, rfl, trivial⟩
  · exact ⟨.allOff, rfl, trivial⟩
  · exact ⟨.eventNoteOn, rfl, trivial⟩
  · exact ⟨.eventNoteOff, rfl, trivial⟩
  · exact ⟨.eventOther, rfl, trivial⟩
  · exact ⟨.vstart (BitVec.ofNat 5 slot), (encodeCommand_slotRow (by omega)).1,
      slotFits slot inPool⟩
  · exact ⟨.vstop (BitVec.ofNat 5 slot), (encodeCommand_slotRow (by omega)).2,
      slotFits slot inPool⟩

/-- A word that meets none of R105's conditions is on R104's list. -/
theorem legalWord_of_not_illegalWord {n : Nat} {w : Word} (notIllegal : ¬ illegalWord n w) :
    legalWord n w := by
  have range := w.isLt
  simp only [illegalWord] at notIllegal
  unfold legalWord
  by_cases start : w.toNat % 16 = 6
  · iterate 8 right
    left
    exact ⟨w.toNat / 2 ^ 8 % 32, by omega, (eq_slotRow_iff (by decide) (by omega)).mpr (by omega)⟩
  by_cases stop : w.toNat % 16 = 7
  · iterate 9 right
    exact ⟨w.toNat / 2 ^ 8 % 32, by omega, (eq_slotRow_iff (by decide) (by omega)).mpr (by omega)⟩
  · simp only [← BitVec.toNat_inj, BitVec.toNat_ofNat]
    omega

/-- R104's list is the words of the commands whose slot the pool has. -/
theorem legalWord_iff_command {n : Nat} {w : Word} (capacity : n ≤ 32) :
    legalWord n w ↔ ∃ c, encodeCommand c = w ∧ c.FitsPool n := by
  refine ⟨exists_command_of_legalWord capacity, ?_⟩
  rintro ⟨c, rfl, fits⟩
  exact legalWord_of_not_illegalWord fun illegal => (illegalWord_encodeCommand n c).mp illegal fits

/-- R104's list is the complement of R105's conditions. -/
theorem legalWord_iff_not_illegalWord {n : Nat} {w : Word} (capacity : n ≤ 32) :
    legalWord n w ↔ ¬ illegalWord n w := by
  refine ⟨fun legal illegal => ?_, legalWord_of_not_illegalWord⟩
  obtain ⟨c, rfl, fits⟩ := exists_command_of_legalWord capacity legal
  exact (illegalWord_encodeCommand n c).mp illegal fits

/-- Settles O4: each clause through the commands, whose words the list and the masks name and whose
slot range is the one condition the decoder leaves. -/
theorem legalListComplementsIllegalConditions :
    Obligations.LegalListComplementsIllegalConditions := by
  intro n w capacity
  have complement := legalWord_iff_not_illegalWord (w := w) capacity
  have accepted : legalWord n w ↔ ∃ c, decodeCommand w = .ok c ∧ c.FitsPool n := by
    simp only [decodeCommand_eq_ok]
    exact legalWord_iff_command capacity
  refine ⟨?_, ?_, complement, isCommandWord_iff⟩
  · simpa only [fitsPool_iff] using accepted
  · rw [← not_iff_not, ← complement, accepted]
    simp only [← not_fitsPool_iff, not_forall, not_not, exists_prop]

end Sys2Proof

namespace Sys2Proof.Machine

/-! What a word written to CMD does. -/

/-- A word written to CMD is executed as the decoder reads it (20_memory.md R80, 30_encoding.md R100). -/
theorem exec_cmdWrite (w : Word) (s : State) :
    exec (.wr 0x004#12 4 w) s = .next (executeCommand params w s) := by
  rw [exec_eq_transact, transact, runWr_cmd]

/-- A command whose slot the pool does not have is a CommandError (40_voice.md R160, R162). -/
theorem runCommand_of_not_fitsPool (P : Params) {c : Command} {s : State}
    (absent : ¬ c.FitsPool s.block.nVoices) : runCommand P c s = raiseCommandError s := by
  obtain ⟨slot, rfl | rfl, range⟩ := not_fitsPool_iff.mp absent
  · exact if_pos range
  · exact if_pos range

/-- Settles O5: a word the decoder refuses raises CommandError at once, and a word it accepts is
illegal only for its slot, which VSTART and VSTOP check. -/
theorem illegalWordSetsOnlyCmderr : Obligations.IllegalWordSetsOnlyCmderr := by
  intro s w illegal
  have raised : executeCommand params w s = raiseCommandError s := by
    unfold executeCommand
    split
    · rename_i c decoded
      rw [← decodeCommand_eq_ok.mp decoded, illegalWord_encodeCommand] at illegal
      exact runCommand_of_not_fitsPool params illegal
    · rfl
  rw [exec_cmdWrite, raised]
  rfl

/-- NoteOn writes the voices alone (41_pool.md R172, R173). -/
theorem poolNoteOn_registers (P : Params) (b : Block) :
    (poolNoteOn P b).cmderr = b.cmderr ∧ (poolNoteOn P b).args = b.args := by
  unfold poolNoteOn
  split <;> exact ⟨rfl, rfl⟩

/-- The routing of a NoteOn event writes the voices alone (42_dispatch.md R200). -/
theorem routeNoteOn_registers (P : Params) (b : Block) :
    (routeNoteOn P b).cmderr = b.cmderr ∧ (routeNoteOn P b).args = b.args := by
  unfold routeNoteOn
  split
  · exact ⟨rfl, rfl⟩
  · exact poolNoteOn_registers P b

/-- A command whose slot the pool has ends in OKAY, with CMDERR and the argument registers as they
were (30_encoding.md R104, 10_state.md R42, R46). -/
theorem runCommand_of_fitsPool (P : Params) {c : Command} {s : State}
    (fits : c.FitsPool s.block.nVoices) :
    ∃ b, runCommand P c s = commandDone s b ∧ b.cmderr = s.block.cmderr ∧ b.args = s.block.args := by
  cases c with
  | noteOn => exact ⟨_, rfl, poolNoteOn_registers P s.block⟩
  | eventNoteOn => exact ⟨_, rfl, routeNoteOn_registers P s.block⟩
  | vstart slot => exact ⟨_, if_neg (Nat.not_le.mpr fits), rfl, rfl⟩
  | vstop slot => exact ⟨_, if_neg (Nat.not_le.mpr fits), rfl, rfl⟩
  | _ => exact ⟨_, rfl, rfl, rfl⟩

/-- Settles O6: a legal word is the word of a command whose slot the pool has. -/
theorem legalWordExecutesWithoutError : Obligations.LegalWordExecutesWithoutError := by
  intro s w wf legal
  obtain ⟨-, capacity⟩ := (block_wf_iff s.block).mp wf
  obtain ⟨c, rfl, fits⟩ := (legalWord_iff_command capacity).mp legal
  obtain ⟨b, ran, cmderr, args⟩ := runCommand_of_fitsPool params fits
  have slots := transact_nVoices params c.toInstr s
  rw [← runCommand_eq_transact, ran] at slots
  refine ⟨commandDone s b, ?_, rfl, rfl, cmderr, args, slots⟩
  rw [exec_cmdWrite, executeCommand_encodeCommand, ← runCommand_eq_transact, ran]

end Sys2Proof.Machine
end

section
/-! PROOFS. The family 40_voice.md: the operations of one slot and of all of them (R130 to R144), runs
of TICKs (R140), the gating state machine (R150 to R152), and what follows from the named properties of
the envelope (R156). -/

namespace Sys2Proof.Machine

/-! One slot of the block. -/

/-- What a change of one slot leaves in the pool, when the pool has that slot. -/
theorem modifyVoice_of_slot {b : Block} {i : Nat} {v : Voice} (f : Voice → Voice)
    (slot : b.voices[i]? = some v) :
    modifyVoice b i f = { b with voices := b.voices.set i (f v) } := by
  rw [modifyVoice, List.modify_eq_set_getElem?, slot]
  rfl

/-- VSTART of a slot the pool has (40_voice.md R160). -/
theorem runVstart_of_lt (P : Params) {s : State} {slot : SlotField}
    (present : slot.toNat < s.block.nVoices) : runVstart P slot s =
      commandDone s (modifyVoice s.block slot.toNat (voiceStart P s.block.args)) :=
  if_neg (Nat.not_le.mpr present)

/-- VSTART of an absent slot (40_voice.md R160). -/
theorem runVstart_of_le (P : Params) {s : State} {slot : SlotField}
    (absent : s.block.nVoices ≤ slot.toNat) : runVstart P slot s = raiseCommandError s :=
  if_pos absent

/-- VSTOP of a slot the pool has (40_voice.md R162). -/
theorem runVstop_of_lt {s : State} {slot : SlotField} (present : slot.toNat < s.block.nVoices) :
    runVstop slot s = commandDone s (modifyVoice s.block slot.toNat voiceStop) :=
  if_neg (Nat.not_le.mpr present)

/-- VSTOP of an absent slot (40_voice.md R162). -/
theorem runVstop_of_le {s : State} {slot : SlotField} (absent : s.block.nVoices ≤ slot.toNat) :
    runVstop slot s = raiseCommandError s :=
  if_pos absent

section
variable {s : State} {slot : SlotField} {v : Voice} (here : s.block.voices[slot.toNat]? = some v)
include here

/-- A slot that holds a voice is a slot of the pool. -/
theorem slot_lt_nVoices : slot.toNat < s.block.nVoices := (List.getElem?_eq_some_iff.mp here).1

/-- The slot after its VSTART (40_voice.md R131). -/
theorem runVstart_slot (P : Params) :
    (runVstart P slot s).block.voices[slot.toNat]? = some (voiceStart P s.block.args v) := by
  simp [runVstart_of_lt P (slot_lt_nVoices here), here]

/-- The slot after its VSTOP (40_voice.md R132). -/
theorem runVstop_slot : (runVstop slot s).block.voices[slot.toNat]? = some (voiceStop v) := by
  simp [runVstop_of_lt (slot_lt_nVoices here), here]

end

/-- Settles O34: Start on the one slot, or CommandError. -/
theorem vstartStartsItsSlot : Obligations.VstartStartsItsSlot := by
  intro s slot
  rw [exec_eq_transact, transact]
  refine ⟨fun v here => ?_, fun absent => ?_⟩
  · rw [runVstart_of_lt params (slot_lt_nVoices here), modifyVoice_of_slot _ here,
      voiceStart_eq_startedVoice]
    rfl
  · rw [runVstart_of_le params absent]
    rfl

/-- Settles O35: Stop on the one slot, or CommandError. -/
theorem vstopLowersTheGateOfItsSlot : Obligations.VstopLowersTheGateOfItsSlot := by
  intro s slot
  rw [exec_eq_transact, transact]
  refine ⟨fun v here => ?_, fun absent => ?_⟩
  · rw [runVstop_of_lt (slot_lt_nVoices here), modifyVoice_of_slot _ here]
    rfl
  · rw [runVstop_of_le absent]
    rfl

/-- A Start of a slot hides a Stop of it just before (70_reset_and_hazards.md R252). -/
theorem modifyVoice_start_after_stop (P : Params) (x : Args) (b : Block) (i : Nat) :
    modifyVoice (modifyVoice b i voiceStop) i (voiceStart P x) =
      modifyVoice b i (voiceStart P x) := by
  have hidden : voiceStart P x ∘ voiceStop = voiceStart P x := funext (voiceStart_voiceStop P x)
  simp only [modifyVoice, List.modify_modify_eq, hidden]

/-- Settles O36: the two commands find the same slot, or both find none and set CMDERR. -/
theorem stopIsHiddenByALaterStart : Obligations.StopIsHiddenByALaterStart := by
  intro s t u w slot stopped restarted started
  rw [exec_eq_transact] at stopped restarted started
  cases stopped
  cases restarted
  cases started
  simp only [transact]
  rcases Nat.lt_or_ge slot.toNat s.block.nVoices with present | absent
  · rw [runVstop_of_lt present, runVstart_of_lt params present, runVstart_of_lt params (by simpa)]
    exact modifyVoice_start_after_stop params s.block.args s.block slot.toNat
  · rw [runVstop_of_le absent, runVstart_of_le params absent,
      runVstart_of_le params (s := raiseCommandError s) absent]
    rfl

/-! INIT and TICK: every slot at once. -/

/-- A slot after INIT (40_voice.md R130). -/
theorem runInit_slot (P : Params) (s : State) (k : Nat) :
    (runInit P s).block.voices[k]? = s.block.voices[k]?.map fun _ => voiceInit P :=
  List.getElem?_map

/-- Settles O27: the pool's Initialize maps every slot to the one initialized voice. -/
theorem initResetsVoicesAndMix : Obligations.InitResetsVoicesAndMix := by
  intro s
  rw [exec_eq_transact, transact, runInit, poolInit, List.map_const',
    voiceInit_eq_initializedVoice]
  rfl

/-- A TICK of an active voice (40_voice.md R140). -/
theorem voiceTick_active {P : Params} {v : Voice} (active : v.active = true) :
    voiceTick P v = { v with
      active := P.eg.running (P.eg.step v.eg v.gate).1
      eg := (P.eg.step v.eg v.gate).1
      osc := (P.osc.step v.osc).1
      out := P.f32.mul (P.f32.mul (P.osc.step v.osc).2 (P.f32.div v.velocity velocityScale))
        (P.eg.step v.eg v.gate).2 } := by
  simp [voiceTick, voiceProcess, active]

/-- No TICK writes the gate (40_voice.md R140). -/
@[simp] theorem voiceTick_gate (P : Params) (v : Voice) : (voiceTick P v).gate = v.gate := by
  unfold voiceTick voiceProcess
  split <;> rfl

/-- The sample of a voice as the statements spell it out. -/
theorem voiceProcess_eq_sampleOf (v : Voice) : (voiceProcess params v).2 = sampleOf v := by
  unfold voiceProcess sampleOf
  split <;> rfl

/-- A TICK of a voice as the statements spell it out. -/
theorem voiceTick_eq_tickedVoice (v : Voice) : voiceTick params v = tickedVoice v := by
  unfold tickedVoice
  split
  · rename_i active
    rw [voiceTick_active active, sampleOf, if_pos active]
    rfl
  · rename_i idle
    exact voiceTick_inactive (Bool.eq_false_iff.mpr idle)

/-- A TICK's block: every slot ticked, and the sum of their samples (41_pool.md R180). -/
theorem poolTick_eq (P : Params) (b : Block) : poolTick P b = { b with
    voices := b.voices.map (voiceTick P)
    mixOut := (b.voices.map fun v => (voiceProcess P v).2).foldl P.f32.add posZero } := by
  simp only [poolTick, mixLoop_eq]

/-- A slot after a TICK (41_pool.md R180). -/
theorem runTick_slot (P : Params) (s : State) (k : Nat) :
    (runTick P s).block.voices[k]? = s.block.voices[k]?.map (voiceTick P) := by
  simp [runTick]

/-- Settles O37: the TICK's block, with each voice and its sample as the statement spells them. -/
theorem tickProcessesEveryVoiceAndMixes : Obligations.TickProcessesEveryVoiceAndMixes := by
  intro s
  have samples : (fun v => (voiceProcess params v).2) = sampleOf := funext voiceProcess_eq_sampleOf
  have voices : voiceTick params = tickedVoice := funext voiceTick_eq_tickedVoice
  rw [exec_eq_transact, transact, runTick, poolTick_eq, samples, voices]
  rfl

/-- Sums of +0.0 from +0.0 are +0.0 (41_pool.md R181). -/
theorem foldl_add_posZero (voices : List Voice) :
    (voices.map fun _ => posZero).foldl params.f32.add posZero = posZero := by
  have zero : f32Add Config.nanOut posZero posZero = posZero := by
    simp [f32Add, show f32IsNaN posZero = false by decide, show f32IsInf posZero = false by decide,
      show f32Value posZero = 0 by decide, show f32Sign posZero = false by decide,
      show f32Zero false = posZero by decide]
  rw [List.foldl_map]
  exact List.foldl_fixed' (fun _ => zero) voices

/-- Settles O38: every voice is inactive, so each one gives +0.0 and keeps all but its V_OUT. -/
theorem tickOfAnIdlePoolIsSilence : Obligations.TickOfAnIdlePoolIsSilence := by
  intro s idle
  have samples : (s.block.voices.map fun v => (voiceProcess params v).2) =
      s.block.voices.map fun _ => posZero :=
    List.map_congr_left fun v member => by rw [voiceProcess_inactive (idle v member)]
  have voices : s.block.voices.map (voiceTick params) =
      s.block.voices.map fun v => { v with out := posZero } :=
    List.map_congr_left fun v member => voiceTick_inactive (idle v member)
  rw [exec_eq_transact, transact, runTick, poolTick_eq, samples, voices, foldl_add_posZero]
  rfl

/-! Runs of TICKs. -/

/-- A slot after `n` TICKs is its voice ticked `n` times. -/
theorem ticks_slot (P : Params) (k n : Nat) (s : State) :
    (transactAll P (List.replicate n .tick) s).block.voices[k]? =
      s.block.voices[k]?.map (voiceTick P)^[n] := by
  induction n generalizing s with
  | zero => simp [transactAll]
  | succ n ih =>
    rw [List.replicate_succ, transactAll, ih, transact, runTick_slot, Option.map_map,
      Function.iterate_succ]

/-- The last of `n + 1` TICKs of an active voice whose envelope runs through the first `n`
(40_voice.md R140): oscillator, envelope and gate go their own ways, so the induction ticks once and
counts every one of them from there. -/
theorem voiceTick_iterate {P : Params} {n : Nat} {v : Voice} (active : v.active = true)
    (runs : ∀ j, 1 ≤ j → j ≤ n → P.eg.running (egAfter P.eg v.gate j v.eg) = true) :
    ((voiceTick P)^[n + 1] v).out =
        P.f32.mul (P.f32.mul (oscSample P.osc n v.osc) (P.f32.div v.velocity velocityScale))
          (egAmplitude P.eg v.gate n v.eg) ∧
      ((voiceTick P)^[n + 1] v).active = P.eg.running (egAfter P.eg v.gate (n + 1) v.eg) ∧
      ((voiceTick P)^[n + 1] v).gate = v.gate ∧ ((voiceTick P)^[n + 1] v).note = v.note ∧
      ((voiceTick P)^[n + 1] v).velocity = v.velocity := by
  induction n generalizing v with
  | zero =>
    rw [Function.iterate_one, voiceTick_active active]
    exact ⟨rfl, rfl, rfl, rfl, rfl⟩
  | succ n ih =>
    rw [Function.iterate_succ_apply, voiceTick_active active]
    exact ih (runs 1 (Nat.le_refl 1) (by omega)) fun j _ _ => runs (j + 1) (by omega) (by omega)

/-- Settles O39: the slot after `n + 1` TICKs is its voice ticked so often. -/
theorem voiceOutputFollowsOscillatorAndEnvelope :
    Obligations.VoiceOutputFollowsOscillatorAndEnvelope := by
  intro P s k n v here active runs
  exact ⟨_, by rw [ticks_slot, here]; rfl, voiceTick_iterate active runs⟩

/-- An active voice whose envelope stops within `k` steps under the gate it has is inactive after as
many TICKs as the envelope's first stop takes (40_voice.md R142). -/
theorem voiceTick_iterate_inactive {P : Params} {v : Voice} {k : Nat} (active : v.active = true)
    (later : 1 ≤ k) (stopped : P.eg.running (egAfter P.eg v.gate k v.eg) = false) :
    ∃ m ≤ k, ((voiceTick P)^[m] v).active = false := by
  have ends : ∃ j, 1 ≤ j ∧ P.eg.running (egAfter P.eg v.gate j v.eg) = false :=
    ⟨k, later, stopped⟩
  obtain ⟨n, first⟩ := Nat.exists_eq_add_of_le' (Nat.find_spec ends).1
  refine ⟨n + 1, first ▸ Nat.find_min' ends ⟨later, stopped⟩, ?_⟩
  have runs : ∀ j, 1 ≤ j → j ≤ n → P.eg.running (egAfter P.eg v.gate j v.eg) = true := by
    intro j positive before
    have := Nat.find_min ends (by omega : j < Nat.find ends)
    simpa [positive] using this
  obtain ⟨-, ended, -⟩ := voiceTick_iterate active runs
  rw [ended, ← first]
  exact (Nat.find_spec ends).2

/-- Settles O55: the voice's gate is down, so its envelope stops within the bound. -/
theorem releasedVoiceFallsSilent : Obligations.ReleasedVoiceFallsSilent := by
  intro P bound ending s k v sus atk dec rel here active released shaped
  obtain ⟨n, later, within, stopped⟩ := ending _ _ _ _ _ _ shaped
  obtain ⟨m, early, inactive⟩ :=
    voiceTick_iterate_inactive active later (by rw [released]; exact stopped)
  exact ⟨m, early.trans within, _, by rw [ticks_slot, here]; rfl, inactive⟩

/-! Arithmetic corner cases. -/

section
variable (nan : ArithOp → F32 → F32 → NanPattern) {a b : F32}

theorem f32Add_of_nan (h : f32IsNaN a = true ∨ f32IsNaN b = true) :
    f32Add nan a b = (nan .add a b).toF32 := by
  rw [f32Add, if_pos (by simpa using h)]

theorem f32Mul_of_nan (h : f32IsNaN a = true ∨ f32IsNaN b = true) :
    f32Mul nan a b = (nan .mul a b).toF32 := by
  rw [f32Mul, if_pos (by simpa using h)]

theorem f32Div_of_nan (h : f32IsNaN a = true ∨ f32IsNaN b = true) :
    f32Div nan a b = (nan .div a b).toF32 := by
  rw [f32Div, if_pos (by simpa using h)]

/-- An infinity and a zero, in either order, have no product (40_voice.md R144). -/
theorem f32Mul_of_inf_zero (h : (f32IsInf a = true ∧ f32IsZero b = true) ∨
    (f32IsZero a = true ∧ f32IsInf b = true)) : f32Mul nan a b = (nan .mul a b).toF32 := by
  by_cases operand : f32IsNaN a = true ∨ f32IsNaN b = true
  · exact f32Mul_of_nan nan operand
  · rw [f32Mul, if_neg (by simpa using operand), if_pos (by simpa using h)]

end

/-- The statements' NaN patterns are the model's. -/
theorem isNaNPattern_iff (a : F32) : isNaNPattern a ↔ f32IsNaN a = true := (f32IsNaN_iff a).symm

/-- Settles O44: each of these operations answers NAN_OUT, which is a NaN whichever it is. -/
theorem nanOperandsGiveNan : Obligations.NanOperandsGiveNan := by
  have nanOut : ∀ p : NanPattern, isNaNPattern p.toF32 := fun p =>
    (isNaNPattern_iff _).mpr (nanPattern_isNaN p)
  refine ⟨fun a b operand => ?_, fun a b infinite zero => ?_⟩
  · rw [isNaNPattern_iff, isNaNPattern_iff] at operand
    rw [params_mul, params_div, show params.f32.add = f32Add Config.nanOut from rfl,
      f32Add_of_nan _ operand, f32Mul_of_nan _ operand, f32Div_of_nan _ operand]
    exact ⟨nanOut _, nanOut _, nanOut _⟩
  · rw [← f32IsInf_iff] at infinite
    rw [← f32IsZero_iff] at zero
    rw [params_mul, f32Mul_of_inf_zero _ (.inl ⟨infinite, zero⟩),
      f32Mul_of_inf_zero _ (.inr ⟨zero, infinite⟩)]
    exact ⟨nanOut _, nanOut _⟩

/-! The gating state machine. -/

/-- Settles O45: of all that a transaction can do to an active voice, Initialize clears `active`, and
a TICK leaves in it what the envelope reports. -/
theorem onlyEnvelopeEndOrInitDeactivates : Obligations.OnlyEnvelopeEndOrInitDeactivates := by
  intro i s t k v w ran before after active idle
  cases exec_voiceChange ran before after with
  | same => simp [active] at idle
  | start => simp at idle
  | stop => simp [active] at idle
  | initialized instr => exact .inr instr
  | tick instr =>
    rw [voiceTick_active active] at idle
    exact .inl ⟨instr, idle⟩

/-- TICK on the gating states (40_voice.md R151): the state stays while the envelope runs. -/
theorem gatingState_voiceTick (P : Params) (v : Voice) : gatingState (voiceTick P v) =
    if P.eg.running (P.eg.step v.eg v.gate).1 = true then gatingState v else .idle := by
  cases active : v.active with
  | false => simp [gatingState, voiceTick_inactive active, active]
  | true => simp [gatingState, voiceTick_active active, active]

/-- Stop on the gating states (40_voice.md R151). -/
theorem gatingState_voiceStop (v : Voice) : gatingState (voiceStop v) =
    if gatingState v = .idle then .idle else .releasing := by
  cases active : v.active <;> cases gate : v.gate <;> simp [gatingState, active, gate]

/-- Settles O47: the slot after each event is its voice after that event's operation. -/
theorem gatingTransitionTable : Obligations.GatingTransitionTable := by
  intro s t slot v w before after
  simp only [exec_eq_transact, Host.Outcome.next.injEq]
  refine ⟨?_, ?_, ?_, ?_⟩
  · rintro rfl
    rw [transact, runTick_slot, before] at after
    obtain rfl := Option.some.inj after
    exact gatingState_voiceTick params v
  · rintro rfl
    obtain rfl := Option.some.inj ((runVstop_slot before).symm.trans after)
    exact ⟨voiceStop_gate v, gatingState_voiceStop v⟩
  · rintro rfl
    obtain rfl := Option.some.inj ((runVstart_slot before params).symm.trans after)
    rfl
  · rintro rfl
    rw [transact, runInit_slot, before] at after
    obtain rfl := Option.some.inj after
    rfl

/-! The named properties of the envelope (40_voice.md R156). -/

/-- Settles O57: the restart follows the configuration with the new shape, so EG_RESTART speaks of
the envelope just configured. -/
theorem retriggerRestartsTheAttack : Obligations.RetriggerRestartsTheAttack := by
  intro P restart s slot v sus atk dec rel n here shaped
  exact ⟨_, runVstart_slot here P, rfl, rfl,
    restart _ _ _ _ _ _ n (.reconfigured _ _ _ _ shaped)⟩

/-- Every voice a transaction leaves comes from a voice of the same slot. -/
theorem exists_voiceChange_of_mem {P : Params} {i : Instr} {s : State} {w : Voice}
    (after : w ∈ (transact P i s).block.voices) :
    ∃ v ∈ s.block.voices, VoiceChange P i s.block.args v w := by
  obtain ⟨k, after⟩ := List.mem_iff_getElem?.mp after
  have present : k < s.block.nVoices :=
    transact_nVoices P i s ▸ (List.getElem?_eq_some_iff.mp after).1
  have before := List.getElem?_eq_getElem present
  exact ⟨_, List.mem_of_getElem? before, transact_voiceChange before after⟩

/-- One more step under the same gate, taken last instead of first. -/
theorem egAfter_succ (E : EgPrim) (gate : Bool) (k : Nat) (e : EgState) :
    egAfter E gate (k + 1) e = (E.step (egAfter E gate k e) gate).1 := by
  induction k generalizing e with
  | zero => rfl
  | succ k ih => exact ih (E.step e gate).1

/-- A voice with its gate down meets the invariant, whatever its envelope. -/
theorem heldVoice_of_gate_down (E : EgPrim) {v : Voice} (down : v.gate = false) :
    heldVoice E v :=
  ⟨fun _ => down, fun _ up => by simp [down] at up⟩

/-- A started voice has an envelope just restarted. -/
theorem heldVoice_voiceStart (P : Params) (x : Args) (v : Voice) :
    heldVoice P.eg (voiceStart P x v) :=
  ⟨fun idle => by simp at idle, fun _ _ => ⟨_, 0, rfl⟩⟩

/-- Under EG_HELD_RUNS a TICK of a Sounding voice steps a gated run that goes on. -/
theorem heldVoice_voiceTick {P : Params} (held : egHeldRuns P.eg) {v : Voice}
    (h : heldVoice P.eg v) : heldVoice P.eg (voiceTick P v) := by
  obtain ⟨idleDown, gatedRun⟩ := h
  cases gate : v.gate with
  | false => exact heldVoice_of_gate_down P.eg (by rw [voiceTick_gate, gate])
  | true =>
    have active : v.active = true := by
      by_contra idle
      simp [idleDown (Bool.eq_false_iff.mpr idle)] at gate
    obtain ⟨e, k, run⟩ := gatedRun active gate
    have stepped : (P.eg.step v.eg v.gate).1 = egAfter P.eg true (k + 1) (P.eg.restart e) := by
      rw [egAfter_succ, run, gate]
    rw [voiceTick_active active]
    refine ⟨fun stopped => ?_, fun _ _ => ⟨e, k + 1, stepped⟩⟩
    have runs := held e k
    rw [← stepped] at runs
    exact absurd (runs.symm.trans stopped) (by decide)

/-- Every transaction keeps the invariant of EG_HELD_RUNS (40_voice.md R152). -/
theorem transact_keeps_heldVoice {P : Params} (held : egHeldRuns P.eg) (i : Instr) (s : State)
    (all : ∀ v ∈ s.block.voices, heldVoice P.eg v) :
    ∀ w ∈ (transact P i s).block.voices, heldVoice P.eg w := by
  intro w after
  obtain ⟨v, member, change⟩ := exists_voiceChange_of_mem after
  cases change with
  | same => exact all _ member
  | start => exact heldVoice_voiceStart P s.block.args v
  | stop => exact heldVoice_of_gate_down P.eg (voiceStop_gate v)
  | initialized _ => exact heldVoice_of_gate_down P.eg rfl
  | tick _ => exact heldVoice_voiceTick held (all v member)

/-- Settles O56: reset leaves every gate down, and every transaction keeps the invariant. -/
theorem heldEnvelopesNeverEndGated : Obligations.HeldEnvelopesNeverEndGated := by
  intro P held s all
  refine advance_keeps (I := fun b => ∀ v ∈ b.voices, heldVoice P.eg v) ?_
    (transact_keeps_heldVoice held) s all
  intro b _ v member
  obtain rfl : v = voiceInit P := List.eq_of_mem_replicate member
  exact heldVoice_of_gate_down P.eg rfl

end Sys2Proof.Machine
end

section
/-! PROOFS. The family 41_pool.md: the allocator's commands (R172 to R178, R185), the capacity bound
(R192), and the mix, which is never -0.0 (R181) and exact where it can be (R182). -/

namespace Sys2Proof.Machine

/-! The mix. -/

theorem posZero_ne_negZero : posZero ≠ negZero := by decide

/-- A sum that does not start at -0.0 never becomes -0.0 (41_pool.md R181). -/
theorem foldl_f32Add_ne_negZero (nan : ArithOp → F32 → F32 → NanPattern) {acc : F32} (xs : List F32)
    (start : acc ≠ negZero) : xs.foldl (f32Add nan) acc ≠ negZero :=
  List.foldlRecOn (motive := (· ≠ negZero)) xs (f32Add nan) start
    fun _ kept x _ => f32Add_ne_negZero nan x kept

/-- Every transaction keeps MIX_OUT away from -0.0: it leaves the register, or writes +0.0 (INIT) or
a sum that starts at +0.0 (TICK). -/
theorem transact_mixOut_ne_negZero (i : Instr) (s : State) (h : s.block.mixOut ≠ negZero) :
    (transact params i s).block.mixOut ≠ negZero := by
  have change := transact_blockChange params i s
  generalize (transact params i s).block = b at change ⊢
  cases change with
  | initialized _ => exact posZero_ne_negZero
  | tick _ =>
    rw [poolTick_mixOut]
    exact foldl_f32Add_ne_negZero Config.nanOut _ posZero_ne_negZero
  | _ => exact h

/-- Settles O40: reset leaves +0.0 in MIX_OUT, and every transaction keeps it away from -0.0. -/
theorem mixIsNeverNegativeZero : Obligations.MixIsNeverNegativeZero := by
  intro s t h stepped
  rw [step_eq_next_advance] at stepped
  cases stepped
  exact advance_keeps (I := fun b => b.mixOut ≠ negZero) (fun _ _ => posZero_ne_negZero)
    transact_mixOut_ne_negZero s h

/-- A sum of finite values whose partial sums are all representable is exact (41_pool.md R182). -/
theorem foldl_f32Add_exact (nan : ArithOp → F32 → F32 → NanPattern) {acc : F32} {xs : List F32}
    (start : isFinitePattern acc) (terms : ∀ x ∈ xs, isFinitePattern x)
    (partials : ∀ k, ∃ c, isFinitePattern c ∧
      f32Value c = f32Value acc + ((xs.take k).map f32Value).sum) :
    isFinitePattern (xs.foldl (f32Add nan) acc) ∧
      f32Value (xs.foldl (f32Add nan) acc) = f32Value acc + (xs.map f32Value).sum := by
  induction xs generalizing acc with
  | nil => exact ⟨start, by simp⟩
  | cons x xs ih =>
    obtain ⟨c, representable, value⟩ := partials 1
    have sum : f32Value acc + f32Value x = f32Value c := by simp [value]
    obtain ⟨finite, summed⟩ :=
      f32Add_exact nan start (terms x List.mem_cons_self) representable sum
    rw [List.foldl_cons, List.map_cons, List.sum_cons, ← add_assoc, sum, ← summed]
    refine ih finite (fun y later => terms y (List.mem_cons_of_mem x later)) fun k => ?_
    obtain ⟨d, representable, value⟩ := partials (k + 1)
    refine ⟨d, representable, ?_⟩
    rw [value, summed, ← sum, List.take_succ_cons, List.map_cons, List.sum_cons, add_assoc]

/-- The mix is the sum of the captured V_OUT registers, in slot order from +0.0 (R180). -/
theorem runTick_mixOut (P : Params) (s : State) : (runTick P s).block.mixOut =
    ((runTick P s).block.voices.map Voice.out).foldl P.f32.add posZero := by
  simp only [runTick, answer_block, poolTick_mixOut, poolTick_voices, List.map_map]
  rfl

/-- Settles O41: the mix is the sum of the V_OUT registers, and a sum with representable partial
sums is exact. -/
theorem representableMixIsTheExactSum : Obligations.RepresentableMixIsTheExactSum := by
  intro P nan s arith finite partials
  have start : isFinitePattern posZero := show posZero.toNat % 2 ^ 31 < 0x7F800000 by decide
  have zero : f32Value posZero = 0 := by decide
  simp only [transact] at finite partials ⊢
  rw [runTick_mixOut, show P.f32.add = f32Add nan by rw [arith]; rfl]
  have mix := foldl_f32Add_exact nan (xs := (runTick P s).block.voices.map Voice.out) start
    (List.forall_mem_map.mpr finite) fun k => by
      obtain ⟨c, representable, value⟩ := partials k
      refine ⟨c, representable, ?_⟩
      rw [value, zero, zero_add, ← List.map_take, List.map_map]
      rfl
  rwa [zero, zero_add, List.map_map] at mix

/-! NoteOn. -/

section
variable (P : Params) {b : Block}

/-- NoteOn starts the slot that the first-free scan finds (41_pool.md R172). -/
theorem poolNoteOn_of_firstFree {k : Nat} {v : Voice} (first : firstFree b.voices = some k)
    (here : b.voices[k]? = some v) :
    poolNoteOn P b = { b with voices := b.voices.set k (voiceStart P b.args v) } := by
  rw [poolNoteOn, first]
  exact modifyVoice_of_slot _ here

/-- NoteOn is dropped when the first-free scan finds nothing (41_pool.md R173). -/
theorem poolNoteOn_of_full (full : firstFree b.voices = none) : poolNoteOn P b = b := by
  rw [poolNoteOn, full]

end

/-- Settles O28: the scan finds the lowest free slot, or nothing on a full pool. -/
theorem noteOnStartsTheLowestFreeSlotOrDrops :
    Obligations.NoteOnStartsTheLowestFreeSlotOrDrops := by
  intro s
  rw [exec_eq_transact, transact, runNoteOn]
  refine ⟨fun k v here free below => ?_, fun full => ?_⟩
  · rw [poolNoteOn_of_firstFree params (firstFree_eq_some here free below) here,
      voiceStart_eq_startedVoice]
    rfl
  · rw [poolNoteOn_of_full params (firstFree_eq_none full)]
    rfl

/-- A started free slot counts once more. -/
theorem activeCount_set_of_free {voices : List Voice} {k : Nat} {v w : Voice}
    (here : voices[k]? = some v) (free : v.active = false) (active : w.active = true) :
    activeCount (voices.set k w) = activeCount voices + 1 := by
  obtain ⟨present, rfl⟩ := List.getElem?_eq_some_iff.mp here
  simp [activeCount, List.countP_set present, free, active]

/-- A pool with a free slot has fewer active voices than slots. -/
theorem activeCount_lt_of_free {voices : List Voice} {k : Nat} {v : Voice}
    (here : voices[k]? = some v) (free : v.active = false) :
    activeCount voices < voices.length := by
  refine Nat.lt_of_le_of_ne List.countP_le_length fun all => ?_
  have := List.countP_eq_length.mp all v (List.mem_of_getElem? here)
  simp [free] at this

/-- Where the scan finds nothing every slot is active (41_pool.md R173). -/
theorem activeCount_of_full {voices : List Voice} (full : firstFree voices = none) :
    activeCount voices = voices.length := by
  simpa [firstFree, activeCount, List.countP_eq_length] using full

/-- One NoteOn adds one active voice, up to the capacity (41_pool.md R192). -/
theorem activeCount_poolNoteOn (P : Params) (b : Block) :
    activeCount (poolNoteOn P b).voices = min b.nVoices (activeCount b.voices + 1) := by
  cases first : firstFree b.voices with
  | none =>
    rw [poolNoteOn_of_full P first, activeCount_of_full first]
    exact (Nat.min_eq_left (Nat.le_succ _)).symm
  | some k =>
    obtain ⟨v, here, free⟩ := firstFree_spec first
    rw [poolNoteOn_of_firstFree P first here, activeCount_set_of_free here free rfl]
    exact (Nat.min_eq_right (activeCount_lt_of_free here free)).symm

/-- A step with a NOTE_ON at the head of the inbox takes it off, and adds one active voice, up to
the capacity (20_memory.md R91, 41_pool.md R192). -/
theorem step_of_noteOn {s : State} {rest : List Input}
    (presented : s.inbox = .request (encode .noteOn) :: rest) :
    ∃ u, step s = .next u ∧ u.inbox = rest ∧ u.block.nVoices = s.block.nVoices ∧
      activeCount u.block.voices = min s.block.nVoices (activeCount s.block.voices + 1) := by
  refine ⟨runNoteOn params { s with inbox := rest }, ?_, rfl, ?_, ?_⟩
  · rw [stepRunsThePresentedTransaction s .noteOn rest rfl presented, exec_eq_transact, transact]
  · exact transact_nVoices params .noteOn { s with inbox := rest }
  · exact activeCount_poolNoteOn params s.block

/-- Settles O54, by induction on the number of commands: each step runs one of them. -/
theorem capacityBoundsPolyphony : Obligations.CapacityBoundsPolyphony := by
  intro s m rest presented
  induction m generalizing s with
  | zero =>
    refine ⟨s, run_zero core s, presented, ?_⟩
    exact (Nat.min_eq_right List.countP_le_length).symm
  | succ m ih =>
    rw [List.replicate_succ, List.cons_append] at presented
    obtain ⟨u, stepped, waiting, slots, count⟩ := step_of_noteOn presented
    obtain ⟨t, ran, inbox, counted⟩ := ih u waiting
    refine ⟨t, (run_of_step core stepped).trans ran, inbox, ?_⟩
    rw [counted, slots, count]
    omega

/-! NoteOff, ALL_OFF and the commands without effect. -/

/-- NoteOff as the statements spell it out. -/
theorem poolNoteOff_eq_released (b : Block) : poolNoteOff params b =
    { b with voices := releasedVoices b.args.note b.voices } := by
  have released : noteOffVoice params b.args.note = fun v =>
      if v.active = true ∧ params.f32.eq v.note b.args.note = true then { v with gate := false }
      else v := by
    funext v
    simp only [noteOffVoice, Bool.and_eq_true]
    rfl
  rw [poolNoteOff, released, releasedVoices]

/-- NOTE_OFF and EVENT of kind NoteOff are one operation (42_dispatch.md R200). -/
theorem exec_noteOff {i : Instr} (kind : i = .noteOff ∨ i = .eventNoteOff) (s : State) :
    exec i s = .next (commandDone s (poolNoteOff params s.block)) := by
  rcases kind with rfl | rfl <;> rfl

/-- Settles O29: both commands are NoteOff of ARG_NOTE. -/
theorem noteOffReleasesEveryMatchingSlot : Obligations.NoteOffReleasesEveryMatchingSlot := by
  intro i s kind
  rw [exec_noteOff kind, poolNoteOff_eq_released]
  rfl

/-- Settles O30: NoteOff reads the note alone of the argument registers, and writes none. -/
theorem noteOffIgnoresTheReleaseVelocity : Obligations.NoteOffIgnoresTheReleaseVelocity := by
  intro i s vel t t' kind ran ran'
  rw [exec_noteOff kind] at ran ran'
  cases ran
  cases ran'
  rfl

/-- Settles O26: both commands answer, with the block as it was. -/
theorem nopAndEventOtherChangeNothing : Obligations.NopAndEventOtherChangeNothing := by
  rintro i s (rfl | rfl)
  · exact exec_eq_transact .nop s
  · exact exec_eq_transact .eventOther s

/-- Settles O31: FreeAllVoices maps Stop, which lowers the gate alone, over the pool. -/
theorem allOffLowersEveryGate : Obligations.AllOffLowersEveryGate := fun s =>
  exec_eq_transact .allOff s

end Sys2Proof.Machine
end

section
/-! PROOFS. The family 42_dispatch.md: the routing of a NoteOn event by its velocity (R200, R201). -/

namespace Sys2Proof.Machine

/-- The zero test of the routing holds of the two zeros and of no other pattern (00_scope.md R21,
42_dispatch.md R201). -/
theorem params_eq_posZero_iff (a : F32) :
    params.f32.eq a posZero = true ↔ a = 0x00000000#32 ∨ a = 0x80000000#32 := by
  have zeros : a.toNat % 2 ^ 31 = 0 ↔ a = 0x00000000#32 ∨ a = 0x80000000#32 := by
    simp only [← BitVec.toNat_inj, BitVec.toNat_ofNat]
    omega
  rw [equalityIsQuiet, ← zeros]
  constructor
  · rintro ⟨-, -, rfl | ⟨zero, -⟩⟩
    · rfl
    · exact zero
  · intro zero
    have notNan {c : F32} (zero : c.toNat % 2 ^ 31 = 0) : ¬ isNaNPattern c := by
      rw [isNaNPattern, zero]
      decide
    exact ⟨notNan zero, notNan rfl, .inr ⟨zero, rfl⟩⟩

/-- A NoteOn event with a zero velocity runs as EVENT of kind NoteOff (42_dispatch.md R200). -/
theorem exec_eventNoteOn_of_zero {s : State}
    (zero : s.block.args.vel = 0x00000000#32 ∨ s.block.args.vel = 0x80000000#32) :
    exec .eventNoteOn s = exec .eventNoteOff s := by
  have off : routeNoteOn params s.block = poolNoteOff params s.block :=
    if_pos ((params_eq_posZero_iff _).mpr zero)
  simp only [exec_eq_transact, transact, runEventNoteOn, runEventNoteOff, off]

/-- A NoteOn event with any other velocity runs as NOTE_ON (42_dispatch.md R200). -/
theorem exec_eventNoteOn_of_nonzero {s : State}
    (nonzero : ¬ (s.block.args.vel = 0x00000000#32 ∨ s.block.args.vel = 0x80000000#32)) :
    exec .eventNoteOn s = exec .noteOn s := by
  have on : routeNoteOn params s.block = poolNoteOn params s.block :=
    if_neg (mt (params_eq_posZero_iff _).mp nonzero)
  simp only [exec_eq_transact, transact, runEventNoteOn, runNoteOn, on]

/-- Settles O32: the event is routed to NoteOff, whose effect O29 states. -/
theorem zeroVelocityNoteOnEventIsNoteOff : Obligations.ZeroVelocityNoteOnEventIsNoteOff := by
  intro s zero
  rw [exec_eventNoteOn_of_zero zero]
  exact noteOffReleasesEveryMatchingSlot .eventNoteOff s (.inr rfl)

/-- Settles O33: the event is routed to NoteOn, whose effect O28 states. -/
theorem nonzeroVelocityNoteOnEventIsNoteOn : Obligations.NonzeroVelocityNoteOnEventIsNoteOn := by
  intro s notPos notNeg
  rw [exec_eventNoteOn_of_nonzero (not_or.mpr ⟨notPos, notNeg⟩)]
  exact noteOnStartsTheLowestFreeSlotOrDrops s

end Sys2Proof.Machine
end

section
/-! PROOFS. The family 60_exceptions.md: refused accesses (R211), the one cause of CMDERR (R212), and
a block that never stops and whose errors the history records (R229). -/

namespace Sys2Proof.Machine

/-! No fault state. -/

/-- Settles O11: a step is `advance`, which is total. -/
theorem everyStepAnswersANextState : Obligations.EveryStepAnswersANextState := fun s =>
  ⟨advance params s, step_eq_next_advance s⟩

/-! DecodeError. -/

/-- A read that R76 does not permit raises DecodeError. -/
theorem runRd_of_not_readPermitted {s : State} {addr : Addr} {n : Nat}
    (refused : ¬ readPermitted s.block.nVoices addr n) : runRd addr n s = raiseReadDecodeError s := by
  rw [← decodeRead_isOk] at refused
  cases decoded : decodeRead s.block.nVoices addr n with
  | ok t => exact absurd ⟨t, decoded⟩ refused
  | error e => rw [runRd, decoded]

/-- A write that R76 does not permit raises DecodeError, whatever its data. -/
theorem runWr_of_not_writePermitted (P : Params) {s : State} {addr : Addr} {n : Nat}
    (refused : ¬ writePermitted addr n) (d : Word) :
    runWr P addr n d s = raiseWriteDecodeError s := by
  rw [← decodeWrite_isOk (N := s.block.nVoices)] at refused
  cases decoded : decodeWrite s.block.nVoices addr n with
  | ok t => exact absurd ⟨t, decoded⟩ refused
  | error e => rw [runWr, decoded]

/-- Settles O20: the permitted accesses are those the address decoder accepts, and DecodeError
answers without a change. -/
theorem refusedAccessAnswersDecerr : Obligations.RefusedAccessAnswersDecerr := by
  intro s addr n
  constructor
  · intro refused
    rw [exec_eq_transact, transact, runRd_of_not_readPermitted refused]
    rfl
  · intro refused d
    rw [exec_eq_transact, transact, runWr_of_not_writePermitted params refused]
    rfl

/-! CommandError and the history. -/

/-- A command raises CommandError or sets no CMDERR (30_encoding.md R104, R105). -/
theorem runCommand_cmderr (P : Params) (c : Command) (s : State) :
    runCommand P c s = raiseCommandError s ∨
      ((runCommand P c s).block.cmderr = true → s.block.cmderr = true) := by
  by_cases fits : c.FitsPool s.block.nVoices
  · obtain ⟨b, ran, cmderr, -⟩ := runCommand_of_fitsPool P fits
    rw [ran, commandDone_block, cmderr]
    exact .inr id
  · exact .inl (runCommand_of_not_fitsPool P fits)

/-- A write raises CommandError or sets no CMDERR. -/
theorem runWr_cmderr (P : Params) (addr : Addr) (n : Nat) (d : Word) (s : State) :
    runWr P addr n d s = raiseCommandError s ∨
      ((runWr P addr n d s).block.cmderr = true → s.block.cmderr = true) := by
  unfold runWr
  split
  case h_1 =>
    unfold executeCommand
    split
    · exact runCommand_cmderr P _ s
    · exact .inl rfl
  case h_2 =>
    rw [answer_block, statusWrite_eq]
    dsimp only
    split
    · exact .inr nofun
    · exact .inr id
  case h_3 => exact .inr id
  case h_4 => exact .inr id

/-- Nothing but CommandError sets CMDERR (60_exceptions.md R212). -/
theorem transact_cmderr (P : Params) (i : Instr) (s : State) :
    transact P i s = raiseCommandError s ∨
      ((transact P i s).block.cmderr = true → s.block.cmderr = true) := by
  have command (c : Command) : transact P c.toInstr s = raiseCommandError s ∨
      ((transact P c.toInstr s).block.cmderr = true → s.block.cmderr = true) := by
    rw [← runCommand_eq_transact]
    exact runCommand_cmderr P c s
  cases i with
  | nop => exact command .nop
  | init => exact command .init
  | noteOn => exact command .noteOn
  | noteOff => exact command .noteOff
  | allOff => exact command .allOff
  | eventNoteOn => exact command .eventNoteOn
  | eventNoteOff => exact command .eventNoteOff
  | eventOther => exact command .eventOther
  | vstart slot => exact command (.vstart slot)
  | vstop slot => exact command (.vstop slot)
  | tick => exact .inr id
  | rd addr n =>
    rw [transact, runRd_block]
    exact .inr id
  | wr addr n d => exact runWr_cmderr P addr n d s

/-- While CMDERR is set, the history holds an illegal command. -/
def State.CmderrWitnessed (s : State) : Prop :=
  s.block.cmderr = true → .illegalCommand ∈ s.log

/-- Every transaction keeps CMDERR witnessed: the one that sets it records the illegal command, and
the others only add to the history. -/
theorem transact_keeps_cmderrWitnessed (P : Params) (i : Instr) {s : State}
    (h : s.CmderrWitnessed) : (transact P i s).CmderrWitnessed := by
  intro cmderr
  rcases transact_cmderr P i s with raised | unset
  · rw [raised, raiseCommandError_log]
    exact List.mem_cons_self
  · obtain ⟨e, log, -⟩ := transact_answer P i s
    rw [log]
    exact List.mem_cons_of_mem e (h (unset cmderr))

/-- Every step keeps CMDERR witnessed; the reset input clears it. -/
theorem advance_keeps_cmderrWitnessed (P : Params) {s : State} (h : s.CmderrWitnessed) :
    (advance P s).CmderrWitnessed := by
  rcases advance_cases P s with ⟨-, e⟩ | ⟨rest, -, e⟩ | ⟨r, rest, -, e⟩ | ⟨a, rest, -, e⟩ <;> rw [e]
  · exact h
  · exact nofun
  · exact transact_keeps_cmderrWitnessed P (decode r) (s := { s with inbox := rest }) h
  · exact transact_keeps_cmderrWitnessed P .tick
      (s := { s with inbox := .request (.control a) :: rest }) h

/-- A history without errors holds no illegal command (60_exceptions.md R229). -/
theorem illegalCommand_notMem_of_errorFree {s : State} (clean : s.errorFree = true) :
    .illegalCommand ∉ s.log := fun held =>
  Bool.false_ne_true (List.all_eq_true.mp clean .illegalCommand held)

/-- Settles O53: every step keeps CMDERR witnessed, and a history without errors has no witness. -/
theorem cmderrIsWitnessedByTheHistory : Obligations.CmderrIsWitnessedByTheHistory := by
  intro s t h stepped
  rw [step_eq_next_advance] at stepped
  cases stepped
  have witnessed := advance_keeps_cmderrWitnessed params h
  exact ⟨witnessed, fun clean =>
    Bool.eq_false_iff.mpr (mt witnessed (illegalCommand_notMem_of_errorFree clean))⟩

end Sys2Proof.Machine
end

section
/-! PROOFS. The family 70_reset_and_hazards.md: the reset input (R240, R243), and the capture registers,
which follow the last TICK (R256). -/

namespace Sys2Proof.Machine

/-! Reset. -/

/-- A step with the reset input at the head of the inbox takes it off and resets the block
(70_reset_and_hazards.md R240). -/
theorem step_of_reset {s : State} {rest : List Input} (presented : s.inbox = .reset :: rest) :
    step s = .next (hardReset params { s with inbox := rest }) := by
  rw [step, nextDemand, presented]

/-- Settles O15: the reset input leaves the block of the slots there are, each initialized. -/
theorem resetInputRestoresTheResetValues : Obligations.ResetInputRestoresTheResetValues := by
  intro s rest presented
  rw [step_of_reset presented, hardReset, blockReset, voiceInit_eq_initializedVoice]
  rfl

/-! The capture registers. -/

/-- A change of one slot that leaves V_OUT there leaves every V_OUT. -/
theorem modifyVoice_out {f : Voice → Voice} (keeps : ∀ v, (f v).out = v.out) (b : Block) (k : Nat) :
    (modifyVoice b k f).voices.map Voice.out = b.voices.map Voice.out := by
  refine List.ext_getElem? fun j => ?_
  rw [modifyVoice_voices, List.getElem?_map, List.getElem?_map]
  rcases eq_or_ne k j with rfl | other
  · simp [Function.comp_def, keeps]
  · rw [List.getElem?_modify_ne f _ other]

/-- NoteOff of one slot leaves its V_OUT (41_pool.md R175). -/
@[simp] theorem noteOffVoice_out (P : Params) (note : F32) (v : Voice) :
    (noteOffVoice P note v).out = v.out := by
  unfold noteOffVoice
  split
  · exact voiceStop_out v
  · rfl

/-- A change of the block that is neither a TICK nor INIT leaves the capture registers
(70_reset_and_hazards.md R256). -/
theorem BlockChange.keeps_captures {P : Params} {i : Instr} {b c : Block}
    (change : BlockChange P i b c) (notTick : i ≠ .tick)
    (notInit : ¬ (i = .init ∨ i = .wr 0x004#12 4 0x00000001#32)) :
    c.mixOut = b.mixOut ∧ c.voices.map Voice.out = b.voices.map Voice.out := by
  cases change with
  | same => exact ⟨rfl, rfl⟩
  | cmderrSet => exact ⟨rfl, rfl⟩
  | cmderrCleared => exact ⟨rfl, rfl⟩
  | argument => exact ⟨rfl, rfl⟩
  | initialized init => exact absurd init notInit
  | start k _ => exact ⟨rfl, modifyVoice_out (voiceStart_out P b.args) b k⟩
  | stop k => exact ⟨rfl, modifyVoice_out voiceStop_out b k⟩
  | noteOff => exact ⟨rfl, by simp⟩
  | allOff => exact ⟨rfl, by simp⟩
  | tick tick => exact absurd tick notTick

/-- Settles O50: of all that a transaction can do to the block, only TICK and INIT write a capture
register. -/
theorem captureRegistersLagCommands : Obligations.CaptureRegistersLagCommands := by
  intro i s t ran notTick notInit notInitWord
  rw [exec_eq_transact] at ran
  cases ran
  exact (transact_blockChange params i s).keeps_captures notTick (not_or.mpr ⟨notInit, notInitWord⟩)

end Sys2Proof.Machine
end

section
/-! PROOFS. The family of the step itself: the step with nothing presented (log 3), and the step as
the parametric machine's. -/

namespace Sys2Proof.Machine

/-- Settles O9: an empty inbox demands nothing, and the step answers the state it was given. -/
theorem stepWithNothingPresentedIsIdle : Obligations.StepWithNothingPresentedIsIdle := by
  intro s nothing
  have idle : nextDemand s = .idle := by rw [nextDemand, nothing]
  rw [step, idle]

/-- Settles O13: `exec` is `transact` at `params`, so the three demands of a step answer alike. -/
theorem stepIsAdvanceAtParams : Obligations.StepIsAdvanceAtParams := step_eq_next_advance

end Sys2Proof.Machine
end
